-- ==== Sys2Proof/Word.lean ====
section
/-! DEFINITION. The word types of the core: what spec/00_scope.md R6 calls `Word32`, the byte the
reference memory is made of, and the five bit register index of R11. -/

namespace Sys2Proof

/-- `Word32` of R6: a register, the PC, an address, an instruction word. `+` and `-` on it are the
sums modulo 2^32 of R7 and R119; `toNat` is the unsigned reading `u`, `toInt` the two's complement
reading `s` of R6. -/
abbrev Word := BitVec 32

/-- One byte of the reference memory (R35). -/
abbrev Byte := BitVec 8

/-- A register index: five bits of an instruction word, every value valid (R11). -/
abbrev RegIdx := BitVec 5

end Sys2Proof
end

