-- ==== Sys2Proof/Syntax.lean ====
section
/-! DEFINITION. The instructions: one constructor for each of the 19 rows of spec/opcode_table.json
(R64). The immediate of an instruction is the decoder's `immediate`, a `Word` already assembled and
extended (R8, R80), so that the meanings read as the spec's pseudocode does; which words can occur as
an immediate is the business of Sys2Proof/WellFormed.lean. -/

namespace Sys2Proof

/-- The core's instructions, in the order of the opcode table. -/
inductive Instr where
  /-- HLT, the halt sentinel (R140). -/
  | hlt
  /-- LUI rd, imm (R100). -/
  | lui (rd : RegIdx) (imm : Word)
  /-- AUIPC rd, imm (R101). -/
  | auipc (rd : RegIdx) (imm : Word)
  /-- ADDI rd, rs1, imm (R105). -/
  | addi (rd rs1 : RegIdx) (imm : Word)
  /-- SLLI rd, rs1, imm; the immediate is the shift amount (R106). -/
  | slli (rd rs1 : RegIdx) (imm : Word)
  /-- ADD rd, rs1, rs2 (R110). -/
  | add (rd rs1 rs2 : RegIdx)
  /-- SUB rd, rs1, rs2 (R111). -/
  | sub (rd rs1 rs2 : RegIdx)
  /-- SLL rd, rs1, rs2 (R112). -/
  | sll (rd rs1 rs2 : RegIdx)
  /-- SLT rd, rs1, rs2 (R113). -/
  | slt (rd rs1 rs2 : RegIdx)
  /-- XOR rd, rs1, rs2 (R114). -/
  | xor (rd rs1 rs2 : RegIdx)
  /-- SRL rd, rs1, rs2 (R115). -/
  | srl (rd rs1 rs2 : RegIdx)
  /-- SRA rd, rs1, rs2 (R116). -/
  | sra (rd rs1 rs2 : RegIdx)
  /-- OR rd, rs1, rs2 (R117). -/
  | or (rd rs1 rs2 : RegIdx)
  /-- AND rd, rs1, rs2 (R118). -/
  | and (rd rs1 rs2 : RegIdx)
  /-- SW rs2, imm(rs1): rs1 is the base, rs2 the data (R125). -/
  | sw (rs1 rs2 : RegIdx) (imm : Word)
  /-- BEQ rs1, rs2, imm (R130). -/
  | beq (rs1 rs2 : RegIdx) (imm : Word)
  /-- BNE rs1, rs2, imm (R131). -/
  | bne (rs1 rs2 : RegIdx) (imm : Word)
  /-- BLT rs1, rs2, imm (R132). -/
  | blt (rs1 rs2 : RegIdx) (imm : Word)
  /-- BGE rs1, rs2, imm (R133). -/
  | bge (rs1 rs2 : RegIdx) (imm : Word)
deriving DecidableEq, Repr

end Sys2Proof
end

