-- ==== Sys2Proof/WellFormed.lean ====
section
/-! DEFINITION. Which terms of `Instr` an instruction word can stand for: the immediate of each class
is one the class's field can hold (spec/30_encoding.md R58 to R62, operand ranges of R68). Register
indices need no check: every five bit value is valid (R11). -/

namespace Sys2Proof

/-- I-type and S-type (R58, R60): a signed number from -2048 to 2047. -/
def fitsSigned12 (imm : Word) : Bool := decide (-2048 ≤ imm.toInt) && decide (imm.toInt ≤ 2047)

/-- I-type shift (R59): a shift amount from 0 to 31. -/
def fitsShamt (imm : Word) : Bool := decide (imm.toNat ≤ 31)

/-- B-type (R61): an even signed number from -4096 to 4094. -/
def fitsBranch (imm : Word) : Bool :=
  decide (-4096 ≤ imm.toInt) && decide (imm.toInt ≤ 4094) && decide (imm.toInt % 2 = 0)

/-- U-type (R62): the low 12 bits are zero. -/
def fitsUpper (imm : Word) : Bool := decide (imm.toNat % 4096 = 0)

/-- The immediate, where there is one, is one that the instruction's encoding class can carry. -/
def Instr.wellFormed : Instr → Bool
  | .hlt => true
  | .lui _ imm => fitsUpper imm
  | .auipc _ imm => fitsUpper imm
  | .addi _ _ imm => fitsSigned12 imm
  | .slli _ _ imm => fitsShamt imm
  | .add _ _ _ => true
  | .sub _ _ _ => true
  | .sll _ _ _ => true
  | .slt _ _ _ => true
  | .xor _ _ _ => true
  | .srl _ _ _ => true
  | .sra _ _ _ => true
  | .or _ _ _ => true
  | .and _ _ _ => true
  | .sw _ _ imm => fitsSigned12 imm
  | .beq _ _ imm => fitsBranch imm
  | .bne _ _ imm => fitsBranch imm
  | .blt _ _ imm => fitsBranch imm
  | .bge _ _ imm => fitsBranch imm

end Sys2Proof
end

