-- ==== Sys2Proof/Decode.lean ====
section
/-! DEFINITION. The Instruction Decoder of spec/40_decoder.md (a total function from a word to the
decoded record), the two level lookup of R156 that names the record's instruction or rejects it by
name, and after them the encoder of R70, written from the same tables. -/

namespace Sys2Proof

/-! ### Bytes of a word (R35, R36: little-endian) -/

/-- The word whose bytes, from the lowest address up, are b0, b1, b2, b3 (R35). -/
def leWord (b0 b1 b2 b3 : Byte) : Word := b3 ++ b2 ++ b1 ++ b0

/-- Byte `k` of a word, 0 the one at the lowest address (R35). -/
def leByte (w : Word) (k : Nat) : Byte := w.extractLsb' (8 * k) 8

/-! ### Fields (R51, R52) -/

/-- `w[6:0]` (R51). -/
def fieldOpcode (w : Word) : BitVec 7 := w.extractLsb' 0 7
/-- `w[11:7]` (R52). -/
def fieldRd (w : Word) : RegIdx := w.extractLsb' 7 5
/-- `w[14:12]` (R52). -/
def fieldFunct3 (w : Word) : BitVec 3 := w.extractLsb' 12 3
/-- `w[19:15]` (R52). -/
def fieldRs1 (w : Word) : RegIdx := w.extractLsb' 15 5
/-- `w[24:20]` (R52). -/
def fieldRs2 (w : Word) : RegIdx := w.extractLsb' 20 5
/-- `w[31:25]` (R52). -/
def fieldFunct7 (w : Word) : BitVec 7 := w.extractLsb' 25 7

/-! ### Immediates (R58 to R62) -/

/-- Sign extension to 32 bits, `sext_N` of R7 and R92. -/
def sext {n : Nat} (v : BitVec n) : Word := v.signExtend 32

/-- `sext_12(w[31:20])` (R58). -/
def immI (w : Word) : Word := sext (w.extractLsb' 20 12)
/-- `zext_5(w[24:20])` (R59). -/
def immShamt (w : Word) : Word := (w.extractLsb' 20 5).setWidth 32
/-- `sext_12(w[31:25] ++ w[11:7])` (R60). -/
def immS (w : Word) : Word := sext (w.extractLsb' 25 7 ++ w.extractLsb' 7 5)
/-- `sext_13(w[31] ++ w[7] ++ w[30:25] ++ w[11:8] ++ 0)` (R61). -/
def immB (w : Word) : Word :=
  sext (w.extractLsb' 31 1 ++ w.extractLsb' 7 1 ++ w.extractLsb' 25 6 ++ w.extractLsb' 8 4 ++ 0#1)
/-- `w & 0xFFFFF000` (R62). -/
def immU (w : Word) : Word := w &&& 0xFFFFF000#32

/-! ### The decoder (R80 to R95) -/

/-- The encoding classes of R9 and R63, with the two pseudo-classes HLT and X. -/
inductive EncClass where
  | hlt | u | i | r | s | b | x
deriving DecidableEq, Repr

/-- The class, a function of the opcode alone (R63, R83). -/
def classOf (op : BitVec 7) : EncClass :=
  if op = 0x00#7 then .hlt
  else if op = 0x37#7 then .u
  else if op = 0x17#7 then .u
  else if op = 0x13#7 then .i
  else if op = 0x33#7 then .r
  else if op = 0x23#7 then .s
  else if op = 0x63#7 then .b
  else .x

/-- The decoded instruction record of R80. -/
structure DecodedInstruction where
  opcode : BitVec 7
  rd : RegIdx
  rs1 : RegIdx
  rs2 : RegIdx
  funct3 : BitVec 3
  funct7 : BitVec 7
  immediate : Word
deriving DecidableEq, Repr

/-- The record with the opcode kept and every other field zero: HLT and class X (R82, R90). -/
def DecodedInstruction.bare (op : BitVec 7) : DecodedInstruction where
  opcode := op
  rd := 0#5
  rs1 := 0#5
  rs2 := 0#5
  funct3 := 0#3
  funct7 := 0#7
  immediate := 0#32

/-- `decode` of R95, the fields a class does not extract left zero (R91). -/
def decode (w : Word) : DecodedInstruction :=
  let d := DecodedInstruction.bare (fieldOpcode w)
  match classOf (fieldOpcode w) with
  | .hlt => d
  | .u => { d with rd := fieldRd w, immediate := immU w }
  | .i =>
    let d := { d with rd := fieldRd w, funct3 := fieldFunct3 w, rs1 := fieldRs1 w }
    if fieldFunct3 w = 1#3 then { d with immediate := immShamt w, funct7 := fieldFunct7 w }
    else { d with immediate := immI w }
  | .r =>
    { d with
      rd := fieldRd w, funct3 := fieldFunct3 w, rs1 := fieldRs1 w, rs2 := fieldRs2 w,
      funct7 := fieldFunct7 w }
  | .s => { d with funct3 := fieldFunct3 w, rs1 := fieldRs1 w, rs2 := fieldRs2 w, immediate := immS w }
  | .b => { d with funct3 := fieldFunct3 w, rs1 := fieldRs1 w, rs2 := fieldRs2 w, immediate := immB w }
  | .x => d

/-! ### The dispatch (R156) -/

/-- What a word stands for: an instruction of the table, or one of the two named kinds of unsupported
word (R65). -/
inductive Decoded where
  /-- The word matches a row of the opcode table. -/
  | instr (i : Instr)
  /-- Unsupported opcode (R141), with the opcode. -/
  | unsupportedOpcode (opcode : BitVec 7)
  /-- Unsupported function code (R142), with the record. -/
  | unsupportedFunct (d : DecodedInstruction)
deriving DecidableEq, Repr

/-- Opcode `0x13` (R143): only `funct3` 0, and 1 with `funct7` zero. -/
def dispatchI (d : DecodedInstruction) : Decoded :=
  if d.funct3 = 0#3 then .instr (.addi d.rd d.rs1 d.immediate)
  else if d.funct3 = 1#3 ∧ d.funct7 = 0x00#7 then .instr (.slli d.rd d.rs1 d.immediate)
  else .unsupportedFunct d

/-- Opcode `0x33` (R144): the nine pairs of `funct3` and `funct7`. -/
def dispatchR (d : DecodedInstruction) : Decoded :=
  if d.funct3 = 0#3 ∧ d.funct7 = 0x00#7 then .instr (.add d.rd d.rs1 d.rs2)
  else if d.funct3 = 0#3 ∧ d.funct7 = 0x20#7 then .instr (.sub d.rd d.rs1 d.rs2)
  else if d.funct3 = 1#3 ∧ d.funct7 = 0x00#7 then .instr (.sll d.rd d.rs1 d.rs2)
  else if d.funct3 = 2#3 ∧ d.funct7 = 0x00#7 then .instr (.slt d.rd d.rs1 d.rs2)
  else if d.funct3 = 4#3 ∧ d.funct7 = 0x00#7 then .instr (.xor d.rd d.rs1 d.rs2)
  else if d.funct3 = 5#3 ∧ d.funct7 = 0x00#7 then .instr (.srl d.rd d.rs1 d.rs2)
  else if d.funct3 = 5#3 ∧ d.funct7 = 0x20#7 then .instr (.sra d.rd d.rs1 d.rs2)
  else if d.funct3 = 6#3 ∧ d.funct7 = 0x00#7 then .instr (.or d.rd d.rs1 d.rs2)
  else if d.funct3 = 7#3 ∧ d.funct7 = 0x00#7 then .instr (.and d.rd d.rs1 d.rs2)
  else .unsupportedFunct d

/-- Opcode `0x23` (R145): only `funct3` 2. -/
def dispatchS (d : DecodedInstruction) : Decoded :=
  if d.funct3 = 2#3 then .instr (.sw d.rs1 d.rs2 d.immediate) else .unsupportedFunct d

/-- Opcode `0x63` (R146): `funct3` 0, 1, 4, 5. -/
def dispatchB (d : DecodedInstruction) : Decoded :=
  if d.funct3 = 0#3 then .instr (.beq d.rs1 d.rs2 d.immediate)
  else if d.funct3 = 1#3 then .instr (.bne d.rs1 d.rs2 d.immediate)
  else if d.funct3 = 4#3 then .instr (.blt d.rs1 d.rs2 d.immediate)
  else if d.funct3 = 5#3 then .instr (.bge d.rs1 d.rs2 d.immediate)
  else .unsupportedFunct d

/-- The two level lookup of R156 on the decoded record; the HLT test comes first (R169). -/
def dispatch (d : DecodedInstruction) : Decoded :=
  match classOf d.opcode with
  | .hlt => .instr .hlt
  | .u =>
    if d.opcode = 0x37#7 then .instr (.lui d.rd d.immediate) else .instr (.auipc d.rd d.immediate)
  | .i => dispatchI d
  | .r => dispatchR d
  | .s => dispatchS d
  | .b => dispatchB d
  | .x => .unsupportedOpcode d.opcode

/-- What a fetched word stands for: decode, then dispatch. Total on the 2^32 words (R65). -/
def decodeWord (w : Word) : Decoded := dispatch (decode w)

/-- Why a list of bytes holds no instruction word at its head. -/
inductive DecodeError where
  /-- Fewer than the four bytes every instruction has (R50). -/
  | truncated (available : Nat)
deriving DecidableEq, Repr

/-- The decoder on bytes as memory holds them, lowest address first: four bytes make the word (R35,
R50), and the rest of the list is handed back. -/
def decodeBytes : List Byte → Except DecodeError (Decoded × List Byte)
  | b0 :: b1 :: b2 :: b3 :: rest => .ok (decodeWord (leWord b0 b1 b2 b3), rest)
  | bs => .error (.truncated bs.length)

/-- The instruction the decoder reads from a word numbered as spec/opcode_table.json numbers it: the
word's bytes in the memory's order, given to `decodeBytes`. -/
def decodeTableWord (nbits w : Nat) : Option Instr :=
  let word : Word := BitVec.ofNat 32 (w % 2 ^ nbits)
  if 32 < nbits then none
  else match decodeBytes [leByte word 0, leByte word 1, leByte word 2, leByte word 3] with
    | .ok (.instr i, _) => some i
    | .ok (.unsupportedOpcode _, _) => none
    | .ok (.unsupportedFunct _, _) => none
    | .error _ => none

/-! ### The opcode table (R64) -/

/-- One row of R64: a word `w` is the row's instruction exactly when `w & mask = match`. -/
structure OpcodeRow where
  mnemonic : String
  mask : Word
  matchWord : Word
deriving DecidableEq, Repr

/-- The row of an instruction (R64; spec/opcode_table.json). -/
def Instr.row : Instr → OpcodeRow
  | .hlt => ⟨"HLT", 0x0000007F#32, 0x00000000#32⟩
  | .lui _ _ => ⟨"LUI", 0x0000007F#32, 0x00000037#32⟩
  | .auipc _ _ => ⟨"AUIPC", 0x0000007F#32, 0x00000017#32⟩
  | .addi _ _ _ => ⟨"ADDI", 0x0000707F#32, 0x00000013#32⟩
  | .slli _ _ _ => ⟨"SLLI", 0xFE00707F#32, 0x00001013#32⟩
  | .add _ _ _ => ⟨"ADD", 0xFE00707F#32, 0x00000033#32⟩
  | .sub _ _ _ => ⟨"SUB", 0xFE00707F#32, 0x40000033#32⟩
  | .sll _ _ _ => ⟨"SLL", 0xFE00707F#32, 0x00001033#32⟩
  | .slt _ _ _ => ⟨"SLT", 0xFE00707F#32, 0x00002033#32⟩
  | .xor _ _ _ => ⟨"XOR", 0xFE00707F#32, 0x00004033#32⟩
  | .srl _ _ _ => ⟨"SRL", 0xFE00707F#32, 0x00005033#32⟩
  | .sra _ _ _ => ⟨"SRA", 0xFE00707F#32, 0x40005033#32⟩
  | .or _ _ _ => ⟨"OR", 0xFE00707F#32, 0x00006033#32⟩
  | .and _ _ _ => ⟨"AND", 0xFE00707F#32, 0x00007033#32⟩
  | .sw _ _ _ => ⟨"SW", 0x0000707F#32, 0x00002023#32⟩
  | .beq _ _ _ => ⟨"BEQ", 0x0000707F#32, 0x00000063#32⟩
  | .bne _ _ _ => ⟨"BNE", 0x0000707F#32, 0x00001063#32⟩
  | .blt _ _ _ => ⟨"BLT", 0x0000707F#32, 0x00004063#32⟩
  | .bge _ _ _ => ⟨"BGE", 0x0000707F#32, 0x00005063#32⟩

/-- The 19 rows of R64, in the table's order. -/
def opcodeTable : List OpcodeRow :=
  let r : RegIdx := 0#5
  let z : Word := 0#32
  [ Instr.hlt.row, (Instr.lui r z).row, (Instr.auipc r z).row, (Instr.addi r r z).row,
    (Instr.slli r r z).row, (Instr.add r r r).row, (Instr.sub r r r).row, (Instr.sll r r r).row,
    (Instr.slt r r r).row, (Instr.xor r r r).row ] ++
  [ (Instr.srl r r r).row, (Instr.sra r r r).row, (Instr.or r r r).row, (Instr.and r r r).row,
    (Instr.sw r r z).row, (Instr.beq r r z).row, (Instr.bne r r z).row, (Instr.blt r r z).row,
    (Instr.bge r r z).row ]

/-! ### The encoder (R70) -/

/-- A field moved to its place: `v << k` in a word. -/
def place {n : Nat} (v : BitVec n) (k : Nat) : Word := v.setWidth 32 <<< k

/-- `enc_R` (R70). -/
def encR (op : BitVec 7) (rd : RegIdx) (f3 : BitVec 3) (rs1 rs2 : RegIdx) (f7 : BitVec 7) : Word :=
  place f7 25 ||| place rs2 20 ||| place rs1 15 ||| place f3 12 ||| place rd 7 ||| place op 0

/-- `enc_I` (R70), for `funct3` other than 1. -/
def encI (op : BitVec 7) (rd : RegIdx) (f3 : BitVec 3) (rs1 : RegIdx) (imm : Word) : Word :=
  place (imm.extractLsb' 0 12) 20 ||| place rs1 15 ||| place f3 12 ||| place rd 7 ||| place op 0

/-- `enc_Ish` (R70), for `funct3` 1. -/
def encIsh (op : BitVec 7) (rd rs1 : RegIdx) (imm : Word) (f7 : BitVec 7) : Word :=
  place f7 25 ||| place (imm.extractLsb' 0 5) 20 ||| place rs1 15 ||| place 1#3 12 ||| place rd 7
    ||| place op 0

/-- `enc_S` (R70). -/
def encS (op : BitVec 7) (f3 : BitVec 3) (rs1 rs2 : RegIdx) (imm : Word) : Word :=
  place (imm.extractLsb' 5 7) 25 ||| place rs2 20 ||| place rs1 15 ||| place f3 12
    ||| place (imm.extractLsb' 0 5) 7 ||| place op 0

/-- `enc_B` (R70). -/
def encB (op : BitVec 7) (f3 : BitVec 3) (rs1 rs2 : RegIdx) (imm : Word) : Word :=
  place (imm.extractLsb' 12 1) 31 ||| place (imm.extractLsb' 5 6) 25 ||| place rs2 20
    ||| place rs1 15 ||| place f3 12 ||| place (imm.extractLsb' 1 4) 8
    ||| place (imm.extractLsb' 11 1) 7 ||| place op 0

/-- `enc_U` (R70). -/
def encU (op : BitVec 7) (rd : RegIdx) (imm : Word) : Word :=
  place (imm.extractLsb' 12 20) 12 ||| place rd 7 ||| place op 0

/-- The encoder on decoded records, by class (R70); HLT and class X keep only the opcode. -/
def encodeRecord (d : DecodedInstruction) : Word :=
  match classOf d.opcode with
  | .hlt => place d.opcode 0
  | .u => encU d.opcode d.rd d.immediate
  | .i =>
    if d.funct3 = 1#3 then encIsh d.opcode d.rd d.rs1 d.immediate d.funct7
    else encI d.opcode d.rd d.funct3 d.rs1 d.immediate
  | .r => encR d.opcode d.rd d.funct3 d.rs1 d.rs2 d.funct7
  | .s => encS d.opcode d.funct3 d.rs1 d.rs2 d.immediate
  | .b => encB d.opcode d.funct3 d.rs1 d.rs2 d.immediate
  | .x => place d.opcode 0

/-- The decoded record of an instruction: the opcode, `funct3` and `funct7` of its row of R64, its
operands, and zero elsewhere (R91). -/
def Instr.toRecord : Instr → DecodedInstruction
  | .hlt => .bare 0x00#7
  | .lui rd imm => ⟨0x37#7, rd, 0#5, 0#5, 0#3, 0#7, imm⟩
  | .auipc rd imm => ⟨0x17#7, rd, 0#5, 0#5, 0#3, 0#7, imm⟩
  | .addi rd rs1 imm => ⟨0x13#7, rd, rs1, 0#5, 0#3, 0#7, imm⟩
  | .slli rd rs1 imm => ⟨0x13#7, rd, rs1, 0#5, 1#3, 0x00#7, imm⟩
  | .add rd rs1 rs2 => ⟨0x33#7, rd, rs1, rs2, 0#3, 0x00#7, 0#32⟩
  | .sub rd rs1 rs2 => ⟨0x33#7, rd, rs1, rs2, 0#3, 0x20#7, 0#32⟩
  | .sll rd rs1 rs2 => ⟨0x33#7, rd, rs1, rs2, 1#3, 0x00#7, 0#32⟩
  | .slt rd rs1 rs2 => ⟨0x33#7, rd, rs1, rs2, 2#3, 0x00#7, 0#32⟩
  | .xor rd rs1 rs2 => ⟨0x33#7, rd, rs1, rs2, 4#3, 0x00#7, 0#32⟩
  | .srl rd rs1 rs2 => ⟨0x33#7, rd, rs1, rs2, 5#3, 0x00#7, 0#32⟩
  | .sra rd rs1 rs2 => ⟨0x33#7, rd, rs1, rs2, 5#3, 0x20#7, 0#32⟩
  | .or rd rs1 rs2 => ⟨0x33#7, rd, rs1, rs2, 6#3, 0x00#7, 0#32⟩
  | .and rd rs1 rs2 => ⟨0x33#7, rd, rs1, rs2, 7#3, 0x00#7, 0#32⟩
  | .sw rs1 rs2 imm => ⟨0x23#7, 0#5, rs1, rs2, 2#3, 0#7, imm⟩
  | .beq rs1 rs2 imm => ⟨0x63#7, 0#5, rs1, rs2, 0#3, 0#7, imm⟩
  | .bne rs1 rs2 imm => ⟨0x63#7, 0#5, rs1, rs2, 1#3, 0#7, imm⟩
  | .blt rs1 rs2 imm => ⟨0x63#7, 0#5, rs1, rs2, 4#3, 0#7, imm⟩
  | .bge rs1 rs2 imm => ⟨0x63#7, 0#5, rs1, rs2, 5#3, 0#7, imm⟩

/-- The word of an instruction; for HLT the canonical all-zero word (R140). -/
def encode (i : Instr) : Word := encodeRecord i.toRecord

end Sys2Proof
end

