-- ==== Sys2Proof/Config.lean ====
section
/-! DEFINITION. The parameters of spec/00_scope.md R5 that are open or decided: what is fixed for one
machine and may differ between two. Both values of each are modelled. -/

namespace Sys2Proof

/-- `MISALIGNED_POLICY` of R37: what the reference memory does with an access whose address is not a
multiple of 4. -/
inductive MisalignedPolicy where
  /-- The access has no meaning: the model has no successor there (the default of R37, D12). -/
  | refuse
  /-- The four bytes at a, a+1, a+2, a+3 modulo 2^32, little-endian. -/
  | bytewise
deriving DecidableEq, Repr

/-- `MEM` of R5: the memory behind the port (D10). -/
inductive MemoryKind where
  /-- The reference memory of R35. -/
  | refMem
  /-- Any other memory, of which nothing is known but that it keeps the contract of the port (R30,
  R34): "the core treats it as opaque". The number tells one from another. -/
  | other (k : Nat)
deriving DecidableEq, Repr

/-- What `read32` of the other memory `k` answers, given what that memory holds: none where it defines
no such access (U8). Left open: "Everything else about values ... is the memory's" (R34;
notes/assumptions/18.md). -/
opaque Config.otherRead32 : Nat → List (Nat × Byte) → Word → Option Word

/-- What the other memory `k` holds after a `write32`, given what it held before: none where it defines
no such access. Left open, as `Config.otherRead32`; the contract of R34 is put on it where it is used
(`writePort` in Machine/Ops.lean). -/
opaque Config.otherWrite32 : Nat → List (Nat × Byte) → Word → Word → Option (List (Nat × Byte))

/-- The configuration of one machine (the "OPEN" and "decided" rows of R5). -/
structure Config where
  /-- `X0_HARDWIRED` (R12, D1): register 0 reads 0 and ignores writes. -/
  x0Hardwired : Bool
  /-- `MEM` (R34, R35, D10). -/
  memory : MemoryKind
  /-- `MISALIGNED_POLICY` of the reference memory (R37, D12). -/
  misaligned : MisalignedPolicy
  /-- `RESET_PC` (R23, D7). -/
  resetPc : Word
  /-- `INIT_REGS` (R23, D8). -/
  initRegs : Vector Word 32
  /-- `NFLAGS` (R15, D9). -/
  nflags : Nat
deriving DecidableEq, Repr

/-- Every parameter at the default R5 gives it. -/
def Config.default : Config where
  x0Hardwired := true
  memory := .refMem
  misaligned := .refuse
  resetPc := 0#32
  initRegs := Vector.replicate 32 0#32
  nflags := 0

end Sys2Proof
end

