-- ==== Sys2Proof/Machine/State.lean ====
section
/-! DEFINITION. The state of the machine as plain data (spec/10_state.md R10), the reasons a step can
have no next state, and the state after reset (R23, R185). -/

namespace Sys2Proof.Machine

/-- The bytes of the reference memory behind the port (R35): (address, byte) pairs, addresses strictly
rising, no entry equal to what an unlisted address reads as (`Memory.wf` in Machine/Ops.lean). What
another memory holds is kept as such a list too, and only that memory knows how to read it. -/
abbrev Memory := List Host.Cell

/-- The three values of the step's diagnostic output (R25, R167). -/
inductive Diag where
  /-- `DIAG_NONE`. -/
  | none
  /-- `DIAG_UNSUPPORTED_OPCODE`. -/
  | unsupportedOpcode
  /-- `DIAG_UNSUPPORTED_FUNCT`. -/
  | unsupportedFunct
deriving DecidableEq, Repr

/-- One use of the memory port (R30): `read32(addr)` or `write32(addr, value)`. -/
inductive Access where
  | read (addr : Word)
  | write (addr value : Word)
deriving DecidableEq, Repr

/-- The machine: the core's state of R10, the memory behind its port (R35), the configuration it was
built with (R5), and the outputs of the step that led here. `next` and the decoded instruction are
local to the step (R17, R18) and so are no fields. -/
structure State where
  /-- The parameters of R5. No step changes them. -/
  cfg : Config
  /-- `current.programCounter` (R14). -/
  pc : Word
  /-- `current.registers[0..31]`, as stored (R11); reads and writes go through Machine/Operands.lean. -/
  regs : Vector Word 32
  /-- `current.statusFlags` (R15). -/
  statusFlags : List Bool
  /-- The halted flag: true is `Halted`, false is `Running` (R16). -/
  halted : Bool
  /-- What the memory behind the port holds (R35). -/
  mem : Memory
  /-- The diagnostic output of the last step (R25). The model's own field: the output port made
  visible; every step sets it anew and none reads it. -/
  diag : Diag
  /-- The uses of the memory port in the last step, oldest first (R31, R32). The model's own field,
  as `diag`. -/
  accesses : List Access
deriving DecidableEq, Repr

/-- The hardware never faults: R165 (no exception), R173 ("the hardware itself only ever produces a
next state"). So there is no fault reason at all, and no step can answer one. A fault where the
hardware goes on would be UNSAFE (R173). -/
inductive Fault where
deriving DecidableEq, Repr

/-- Why the model gives no next state. -/
inductive Refusal where
  /-- Raised by `exec` alone, for an instruction whose meaning is not written yet. Safe. No arm of
  this model raises it. -/
  | notModelled (mnemonic : String)
  /-- Raised by the fetch when the PC is not a multiple of 4 and `MISALIGNED_POLICY` is `refuse`
  (R37). A refusal of the reference memory, not a behaviour of the core (R173). Safe: nothing can be
  proved of a run that reaches it. -/
  | misalignedFetch (addr : Word)
  /-- Raised by SW when the store address is not a multiple of 4 and `MISALIGNED_POLICY` is `refuse`
  (R37, R125). Safe, as `misalignedFetch`. -/
  | misalignedStore (addr : Word)
  /-- Raised by the fetch when the memory is not the reference memory and defines no read at the PC
  (U8: "addresses that memory does not define are *refuse*"). Safe, as `misalignedFetch`. -/
  | undefinedFetch (addr : Word)
  /-- Raised by SW when the memory is not the reference memory and defines no write at the store
  address (U8). Safe, as `misalignedFetch`. -/
  | undefinedStore (addr : Word)
deriving DecidableEq, Repr

/-- What a meaning and a step answer. -/
abbrev Result := Host.Outcome State Fault Refusal

/-- The register file after reset: `INIT_REGS`, with register 0 zero when it is hard-wired (R23). -/
def resetRegs (c : Config) : Vector Word 32 :=
  if c.x0Hardwired then c.initRegs.set 0 0#32 else c.initRegs

/-- The state a reset leaves, over the memory it found: reset does not touch the memory (R23, R185,
R186). -/
def State.afterReset (c : Config) (m : Memory) : State where
  cfg := c
  pc := c.resetPc
  regs := resetRegs c
  statusFlags := List.replicate c.nflags false
  halted := false
  mem := m
  diag := .none
  accesses := []

/-- The machine right after reset with every parameter of R5 at its default and a memory in which
nothing is listed (R23, R185). -/
def State.reset : State := State.afterReset Config.default []

end Sys2Proof.Machine
end

