-- ==== Sys2Proof/Machine/Ops.lean ====
section
/-! DEFINITION. The named operations the meanings share: updates of one field of the state, the
reference memory of spec/20_memory.md, the memory port, the default advance of the PC, the halt and
the diagnostic. The hardware has no exception to take and none to return from (R165, R171, R172): its
only events are the halt (R168) and the two diagnostics (R167), and they stand here instead. -/

namespace Sys2Proof.Machine

/-! ### Updates of one field -/

/-- `next.programCounter := t`. -/
def State.setPc (s : State) (t : Word) : State := { s with pc := t }
/-- The stored register `i` replaced, whatever `X0_HARDWIRED` says (R11). -/
def State.setStored (s : State) (i : RegIdx) (v : Word) : State :=
  { s with regs := s.regs.set i.toNat v i.isLt }
/-- The memory replaced. -/
def State.setMem (s : State) (m : Memory) : State := { s with mem := m }
/-- The halted flag set (R16). -/
def State.setHalted (s : State) (h : Bool) : State := { s with halted := h }
/-- The diagnostic output of this step (R25). -/
def State.setDiag (s : State) (d : Diag) : State := { s with diag := d }
/-- The uses of the memory port in this step (R31). -/
def State.setAccesses (s : State) (as : List Access) : State := { s with accesses := as }

/-! ### The reference memory, byte by byte (R35) -/

/-- What an address with no entry reads as: zero, "the conventional default" of R35 (DESIGN CHOICE,
notes/assumptions/4.md). -/
def Memory.unlisted : Byte := 0#8

/-- The canonical form: addresses strictly rise, each is an address of the 2^32 byte space (R35), and
no entry holds what an unlisted address reads as. -/
abbrev Memory.wf (m : Memory) : Prop :=
  m.Pairwise (fun c d => c.1 < d.1) ∧ ∀ c ∈ m, c.1 < 2 ^ 32 ∧ c.2 ≠ Memory.unlisted

/-- The byte at an address. -/
def Memory.read : Memory → Nat → Byte
  | [], _ => Memory.unlisted
  | (k, v) :: rest, a => if k = a then v else Memory.read rest a

/-- The entry for byte `b` at address `a`, if one is listed for it, before `rest`. -/
def Memory.put (a : Nat) (b : Byte) (rest : Memory) : Memory :=
  if b = Memory.unlisted then rest else (a, b) :: rest

/-- The memory with byte `b` at address `a`, in canonical form again. -/
def Memory.write : Memory → Nat → Byte → Memory
  | [], a, b => Memory.put a b []
  | (k, v) :: rest, a, b =>
    if k < a then (k, v) :: Memory.write rest a b
    else if k = a then Memory.put a b rest
    else Memory.put a b ((k, v) :: rest)

/-! ### Words in memory (R30, R35 to R38) -/

/-- `a mod 4 = 0` (R37). -/
def aligned (a : Word) : Bool := a.toNat % 4 == 0

/-- The reference memory has a meaning for an access at `a`: always under `bytewise`, only at a multiple of 4
under `refuse` (R37). -/
def permits (c : Config) (a : Word) : Bool :=
  match c.misaligned with
  | .refuse => aligned a
  | .bytewise => true

/-- `read32` (R35, R37): the bytes at a, a+1, a+2, a+3 modulo 2^32, the first the least significant. -/
def Memory.read32 (m : Memory) (a : Word) : Word :=
  leWord (m.read a.toNat) (m.read (a + 1#32).toNat) (m.read (a + 2#32).toNat)
    (m.read (a + 3#32).toNat)

/-- `write32` (R35, R37), the inverse of `read32`: the same four bytes. -/
def Memory.write32 (m : Memory) (a v : Word) : Memory :=
  (((m.write a.toNat (leByte v 0)).write (a + 1#32).toNat (leByte v 1)).write (a + 2#32).toNat
    (leByte v 2)).write (a + 3#32).toNat (leByte v 3)

/-! ### The memory behind the port (R30, R34) -/

/-- `read32` of the memory behind the port (R30): none where that memory gives the access no meaning
(R37, U8). It answers a word alone, so "a `read32` changes nothing" (R34). -/
def readPort (c : Config) (m : Memory) (a : Word) : Option Word :=
  match c.memory with
  | .refMem => if permits c a then some (m.read32 a) else none
  | .other k => Config.otherRead32 k m a

/-- `write32` of the memory behind the port (R30), as for `readPort`. Of another memory only the writes
that keep the contract are taken: what was written at `a` is what is read at `a` next (R34), and what
the memory holds stays in canonical form. -/
def writePort (c : Config) (m : Memory) (a v : Word) : Option Memory :=
  match c.memory with
  | .refMem => if permits c a then some (m.write32 a v) else none
  | .other k =>
    (Config.otherWrite32 k m a v).filter fun n =>
      decide (n.wf ∧ Config.otherRead32 k n a = some v)

/-- Why a fetch at `a` has no meaning. -/
def fetchRefusal (c : Config) (a : Word) : Refusal :=
  match c.memory with
  | .refMem => .misalignedFetch a
  | .other _ => .undefinedFetch a

/-- Why a store at `a` has no meaning. -/
def storeRefusal (c : Config) (a : Word) : Refusal :=
  match c.memory with
  | .refMem => .misalignedStore a
  | .other _ => .undefinedStore a

/-- The word `read32` would answer at `a`: what a fetch with the PC there returns (R31). -/
abbrev State.wordAt (s : State) (a : Word) : Option Word := readPort s.cfg s.mem a

/-! ### The memory port of the core (R30, R31) -/

/-- A use of the port joins this step's uses, after the earlier ones (R32). -/
def State.logAccess (s : State) (x : Access) : State := s.setAccesses (s.accesses ++ [x])

/-- `MemRead(a, 4)`: the word and the state with the use recorded, or none where the memory gives the
access no meaning (R37). -/
def State.memRead (s : State) (a : Word) : Option (Word × State) :=
  (s.wordAt a).map fun w => (w, s.logAccess (.read a))

/-- `MemWrite(a, 4, v)`, or none where the memory gives the access no meaning (R37). -/
def State.memWrite (s : State) (a v : Word) : Option State :=
  (writePort s.cfg s.mem a v).map fun m => (s.setMem m).logAccess (.write a v)

/-! ### The step's frame (R151, R154, R155) -/

/-- A step begins with `DIAG_NONE` and no use of the port behind it (R25, R151). -/
def State.beginStep (s : State) : State := (s.setDiag .none).setAccesses []

/-- The fetch: `MemRead(pc, 4)`, the step's first use of the port (R31, R151). -/
def State.fetch (s : State) : Option (Word × State) := s.beginStep.memRead s.pc

/-- `next`: a copy of `current` whose PC already stands at `pc + 4` modulo 2^32 (R154, R155). -/
def State.nextOf (s : State) : State := s.setPc (s.pc + 4#32)

/-- The halt: the flag is set and nothing else changes (R140, R152, R168). -/
def State.halt (s : State) : State := s.setHalted true

/-- A no-op with a diagnostic: only the default advance of the PC (R141, R142, R167). -/
def State.skipWith (s : State) (d : Diag) : State := s.nextOf.setDiag d

/-! ### Placing an instruction where the next step fetches it -/

/-- The PC at which the reference memory gives a fetch a meaning: the PC itself, or, where it would
refuse it (R37), the multiple of 4 below it. Over another memory the PC stays. -/
def State.fetchPc (s : State) : Word :=
  match s.cfg.memory with
  | .refMem => if permits s.cfg s.pc then s.pc else s.pc &&& 0xFFFFFFFC#32
  | .other _ => s.pc

/-- The machine running, its PC where a fetch has a meaning, and the word `w` stored there if the
memory defines that. -/
def State.placeWord (s : State) (w : Word) : State :=
  ((s.setHalted false).setPc s.fetchPc).setMem ((writePort s.cfg s.mem s.fetchPc w).getD s.mem)

end Sys2Proof.Machine
end

