-- ==== Sys2Proof/Machine/Operands.lean ====
section
/-! DEFINITION. The operands of the instructions: the registers as R12 reads and writes them, the
shift amount of the register shifts, and the one addressing mode (R33). -/

namespace Sys2Proof.Machine

/-- Register `i` is the hard-wired zero: index 0 under `X0_HARDWIRED` (R12). -/
def State.isZeroReg (s : State) (i : RegIdx) : Bool := s.cfg.x0Hardwired && i == 0#5

/-- The stored register `i`, whatever `X0_HARDWIRED` says (R11). -/
def State.stored (s : State) (i : RegIdx) : Word := s.regs[i.toNat]'i.isLt

/-- `x[i]` read (R12); also what an observer of the state is shown (R24, R26). -/
def State.x (s : State) (i : RegIdx) : Word := if s.isZeroReg i then 0#32 else s.stored i

/-- `x[i] <- v` (R12): discarded for the hard-wired zero, stored in full otherwise. -/
def State.setX (s : State) (i : RegIdx) (v : Word) : State :=
  if s.isZeroReg i then s else s.setStored i v

/-- The shift amount of SLL, SRL and SRA: `x[rs2] & 0x1F` (R119 item 3). -/
def State.shiftAmount (s : State) (rs2 : RegIdx) : Nat := (s.x rs2 &&& 0x1F#32).toNat

/-- The store address: `x[rs1] + imm` modulo 2^32 (R33). -/
def State.effAddr (s : State) (rs1 : RegIdx) (imm : Word) : Word := s.x rs1 + imm

/-- The commit of an instruction that writes one register: `next` with `x[rd] <- v` (R154, R155). -/
def State.commitReg (s : State) (rd : RegIdx) (v : Word) : Result := .next (s.nextOf.setX rd v)

end Sys2Proof.Machine
end

