-- ==== Sys2Proof/Machine/Flags.lean ====
section
/-! DEFINITION. The conditions of SLT and of the branches (R119 item 2), and how a condition reaches
the PC (R134) or a register (R113). There is no flag computation: the status flags are set, read and
tested by no instruction (R15), and each condition is decided from the two register values at hand. -/

namespace Sys2Proof.Machine

/-- `x[rs1] = x[rs2]`, all 32 bits (R130). -/
def State.condEq (s : State) (rs1 rs2 : RegIdx) : Bool := s.x rs1 == s.x rs2

/-- `s(x[rs1]) < s(x[rs2])`, as mathematical integers (R119 item 2). -/
def State.condLt (s : State) (rs1 rs2 : RegIdx) : Bool := decide ((s.x rs1).toInt < (s.x rs2).toInt)

/-- A condition as a register value: 1 or 0 (R113). -/
def boolWord (c : Bool) : Word := if c then 1#32 else 0#32

/-- A branch: `pc + imm` when the condition holds, the default advance otherwise; the offset is from
the branch's own address (R134). -/
def State.branch (s : State) (c : Bool) (imm : Word) : Result :=
  .next (if c then s.nextOf.setPc (s.pc + imm) else s.nextOf)

end Sys2Proof.Machine
end

