-- ==== Sys2Proof/Machine/Branch.lean ====
section
/-! DEFINITION. The four conditional branches (spec/45_branch.md). -/

namespace Sys2Proof.Machine

/-- BEQ (R130). -/
def execBeq (rs1 rs2 : RegIdx) (imm : Word) (s : State) : Result := s.branch (s.condEq rs1 rs2) imm

/-- BNE (R131). -/
def execBne (rs1 rs2 : RegIdx) (imm : Word) (s : State) : Result := s.branch (!s.condEq rs1 rs2) imm

/-- BLT, signed (R132). -/
def execBlt (rs1 rs2 : RegIdx) (imm : Word) (s : State) : Result := s.branch (s.condLt rs1 rs2) imm

/-- BGE, signed: taken exactly when BLT is not (R133). -/
def execBge (rs1 rs2 : RegIdx) (imm : Word) (s : State) : Result := s.branch (!s.condLt rs1 rs2) imm

end Sys2Proof.Machine
end

