-- ==== Sys2Proof/Machine/Halt.lean ====
section
/-! DEFINITION. HLT, the unsupported words and the step of a halted machine
(spec/46_halt_and_unsupported.md; R153). -/

namespace Sys2Proof.Machine

/-- HLT: the halted flag is set, and nothing else changes, the PC included (R140, R152). -/
def execHlt (s : State) : Result := .next s.halt

/-- An unsupported opcode: a no-op with `DIAG_UNSUPPORTED_OPCODE` (R141). -/
def execUnsupportedOpcode (s : State) : Result := .next (s.skipWith .unsupportedOpcode)

/-- An unsupported function code: a no-op with `DIAG_UNSUPPORTED_FUNCT` (R142 to R146). -/
def execUnsupportedFunct (s : State) : Result := .next (s.skipWith .unsupportedFunct)

/-- A step while `Halted`: no state changes, no use of the port, `DIAG_NONE` (R153). -/
def stepHalted (s : State) : Result := .next s.beginStep

end Sys2Proof.Machine
end

