-- ==== Sys2Proof/Machine/Op.lean ====
section
/-! DEFINITION. The nine register-register instructions (spec/43_op.md). -/

namespace Sys2Proof.Machine

/-- ADD (R110). -/
def execAdd (rd rs1 rs2 : RegIdx) (s : State) : Result := s.commitReg rd (s.x rs1 + s.x rs2)

/-- SUB, minuend `rs1` (R111). -/
def execSub (rd rs1 rs2 : RegIdx) (s : State) : Result := s.commitReg rd (s.x rs1 - s.x rs2)

/-- SLL (R112). -/
def execSll (rd rs1 rs2 : RegIdx) (s : State) : Result :=
  s.commitReg rd (s.x rs1 <<< s.shiftAmount rs2)

/-- SLT, signed (R113). -/
def execSlt (rd rs1 rs2 : RegIdx) (s : State) : Result :=
  s.commitReg rd (boolWord (s.condLt rs1 rs2))

/-- XOR (R114). -/
def execXor (rd rs1 rs2 : RegIdx) (s : State) : Result := s.commitReg rd (s.x rs1 ^^^ s.x rs2)

/-- SRL, zeros enter at bit 31 (R115). -/
def execSrl (rd rs1 rs2 : RegIdx) (s : State) : Result :=
  s.commitReg rd (s.x rs1 >>> s.shiftAmount rs2)

/-- SRA, copies of bit 31 enter at bit 31 (R116). -/
def execSra (rd rs1 rs2 : RegIdx) (s : State) : Result :=
  s.commitReg rd ((s.x rs1).sshiftRight (s.shiftAmount rs2))

/-- OR (R117). -/
def execOr (rd rs1 rs2 : RegIdx) (s : State) : Result := s.commitReg rd (s.x rs1 ||| s.x rs2)

/-- AND (R118). -/
def execAnd (rd rs1 rs2 : RegIdx) (s : State) : Result := s.commitReg rd (s.x rs1 &&& s.x rs2)

end Sys2Proof.Machine
end

