-- ==== Sys2Proof/Machine/OpImm.lean ====
section
/-! DEFINITION. ADDI and SLLI (spec/42_op_imm.md). -/

namespace Sys2Proof.Machine

/-- ADDI: `x[rd] <- x[rs1] + imm` (R105). -/
def execAddi (rd rs1 : RegIdx) (imm : Word) (s : State) : Result := s.commitReg rd (s.x rs1 + imm)

/-- SLLI: `x[rd] <- x[rs1] << imm`; the non-zero `funct7` never reaches here (R106, R143). -/
def execSlli (rd rs1 : RegIdx) (imm : Word) (s : State) : Result :=
  s.commitReg rd (s.x rs1 <<< imm.toNat)

end Sys2Proof.Machine
end

