-- ==== Sys2Proof/Machine/Store.lean ====
section
/-! DEFINITION. SW, the one memory instruction (spec/44_store.md). -/

namespace Sys2Proof.Machine

/-- SW: `MemWrite(x[rs1] + imm, 4, x[rs2])`, then the default advance (R125). Where the memory gives
the address no meaning there is no next state (R37, U8). -/
def execSw (rs1 rs2 : RegIdx) (imm : Word) (s : State) : Result :=
  match s.nextOf.memWrite (s.effAddr rs1 imm) (s.x rs2) with
  | some t => .next t
  | none => .refused (storeRefusal s.cfg (s.effAddr rs1 imm))

end Sys2Proof.Machine
end

