-- ==== Sys2Proof/Machine/UpperImmediate.lean ====
section
/-! DEFINITION. LUI and AUIPC (spec/41_upper_immediate.md). -/

namespace Sys2Proof.Machine

/-- LUI: `x[rd] <- imm` (R100). -/
def execLui (rd : RegIdx) (imm : Word) (s : State) : Result := s.commitReg rd imm

/-- AUIPC: `x[rd] <- pc + imm`, the PC that of the AUIPC itself (R101). -/
def execAuipc (rd : RegIdx) (imm : Word) (s : State) : Result := s.commitReg rd (s.pc + imm)

end Sys2Proof.Machine
end

