-- ==== Sys2Proof/Machine/Step.lean ====
section
/-! DEFINITION. The Step Controller (spec/47_step_controller.md R151): one fetch, decode and execute
per invocation. -/

namespace Sys2Proof.Machine

/-- The Execution Unit and the halt on what the fetched word stands for (R151, R156). -/
def execDecoded (d : Decoded) (s : State) : Result :=
  match d with
  | .instr i => exec i s
  | .unsupportedOpcode _ => execUnsupportedOpcode s
  | .unsupportedFunct _ => execUnsupportedFunct s

/-- One invocation of `step()` (R151). -/
def step (s : State) : Host.Outcome State Fault Refusal :=
  if s.halted then stepHalted s
  else match s.fetch with
    | some (w, f) => execDecoded (decodeWord w) f
    | none => .refused (fetchRefusal s.cfg s.pc)

/-- `s` with the table word `w` where the next step fetches its instruction, and running. -/
def State.withFetchWord (s : State) (nbits w : Nat) : State :=
  s.placeWord (BitVec.ofNat 32 (w % 2 ^ nbits))

/-- `StepResult`: the state of the Step Controller's two-state machine (R150, R157). -/
inductive StepResult where
  | running
  | halted
deriving DecidableEq, Repr

/-- What the step that led to this state returned (R157): the value of the halted flag after it. -/
def State.stepResult (s : State) : StepResult := if s.halted then .halted else .running

end Sys2Proof.Machine
end

