-- ==== Sys2Proof/Machine/Ports.lean ====
section
/-! DEFINITION. The port rendering of the core (R24, R160), the spec's own framing (D17): one clock
cycle, the reset and step-enable inputs, and the outputs. It is the closed block, the memory inside, so
`mem_rdata` is no input here. No meaning reads anything of this file. -/

namespace Sys2Proof.Machine

/-- The inputs of one cycle (R24). -/
structure PortsIn where
  rst : Bool
  stepEn : Bool
  dbgRaddr : RegIdx
deriving DecidableEq, Repr

/-- The outputs of one cycle (R24). `memWrite` is `mem_we` with `mem_waddr` and `mem_wdata`: none is
`mem_we = 0`, for which the spec gives the other two no value. -/
structure PortsOut where
  memRaddr : Word
  memRe : Bool
  memWrite : Option (Word × Word)
  halted : Bool
  diag : BitVec 2
  pcO : Word
  dbgRdata : Word
deriving DecidableEq, Repr

/-- The numeric codes of R167. -/
def Diag.code : Diag → BitVec 2
  | .none => 0#2
  | .unsupportedOpcode => 1#2
  | .unsupportedFunct => 2#2

/-- The diagnostic the decoded word of a step raises (R167). -/
def diagOf : Decoded → Diag
  | .instr _ => .none
  | .unsupportedOpcode _ => .unsupportedOpcode
  | .unsupportedFunct _ => .unsupportedFunct

/-- The `write32` the core issues for a decoded word, if it is an SW: address and data. The core passes
the address on unchanged, whatever the memory makes of it (R30, R125). -/
def State.storeOf (s : State) (d : Decoded) : Option (Word × Word) :=
  match d with
  | .instr (.sw rs1 rs2 imm) => some (s.effAddr rs1 imm, s.x rs2)
  | _ => none

/-- The rising clock edge (R160, R185): reset overrides the step, and without either nothing changes. -/
def clockEdge (p : PortsIn) (s : State) : Result :=
  if p.rst then .next (State.afterReset s.cfg s.mem)
  else if p.stepEn then step s
  else .next s

/-- The diagnostic and the store of the step this cycle performs. The spec gives them per step only
(R25, R167). In a cycle that executes no word, `step_en = 0`, `rst = 1` or a fetch the memory gives no
meaning, the model drives `DIAG_NONE` and no store: DESIGN CHOICE, notes/assumptions/11.md. For a
halted machine `DIAG_NONE` and no store are R153's. -/
def cycleStep (p : PortsIn) (s : State) : Diag × Option (Word × Word) :=
  if p.stepEn && !p.rst && !s.halted then
    match s.wordAt s.pc with
    | some w => (diagOf (decodeWord w), s.storeOf (decodeWord w))
    | none => (.none, none)
  else (.none, none)

/-- The outputs during a cycle (R24, R160). -/
def portsOut (p : PortsIn) (s : State) : PortsOut where
  memRaddr := s.pc
  memRe := p.stepEn && !s.halted
  memWrite := (cycleStep p s).2
  halted := s.halted
  diag := (cycleStep p s).1.code
  pcO := s.pc
  dbgRdata := s.x p.dbgRaddr

end Sys2Proof.Machine
end

