-- ==== Sys2Proof/Machine/Run.lean ====
section
/-! DEFINITION. The run a claim speaks of (R158): steps until the first state with the halted flag
set, under fuel because the hardware has no step limit (D27). -/

namespace Sys2Proof.Machine

/-- How a fuelled run stands when it stops being followed. The diagnostics are those of the steps
taken, in order (R167: "record the sequence of diagnostics of a run as a trace"). -/
inductive RunResult where
  /-- The run ended in this halted state (R158). -/
  | ended (final : State) (diags : List Diag)
  /-- The fuel is used up and the machine still runs; the hardware would go on. -/
  | outOfFuel (now : State) (diags : List Diag)
  /-- The next step has no successor in the model (R37). -/
  | stuck (why : Refusal) (last : State) (diags : List Diag)
deriving DecidableEq, Repr

/-- The run from `s`, of at most `fuel` steps; `diags` are those of the steps before. -/
def runFrom : Nat → State → List Diag → RunResult
  | 0, s, diags => if s.halted then .ended s diags else .outOfFuel s diags
  | fuel + 1, s, diags =>
    if s.halted then .ended s diags
    else match step s with
      | .next t => runFrom fuel t (diags ++ [t.diag])
      | .refused r => .stuck r s diags

/-- The run of R158 from a launch state. -/
def runToHalt (fuel : Nat) (s : State) : RunResult := runFrom fuel s []

end Sys2Proof.Machine
end

