-- ==== Sys2Proof/Safety.lean ====
section
/-! DEFINITION. The terms claims are made in: the invariant of the state, the launch premises of R188,
when a step has a successor, what an instruction reads and writes (R13), and the frames: what an
instruction leaves alone. -/

namespace Sys2Proof.Machine

/-! ### Invariant and launch -/

/-- What every step keeps: the memory is in canonical form, a hard-wired register 0 holds 0 (R12), and
there are `NFLAGS` status flags (R15). -/
abbrev State.Inv (s : State) : Prop :=
  s.mem.wf ∧ (s.cfg.x0Hardwired = true → s.stored 0#5 = 0#32) ∧ s.statusFlags.length = s.cfg.nflags

/-- The launch premises of R188 that are not about one program: running, the PC a multiple of 4, and
the invariant. -/
abbrev State.LaunchReady (s : State) : Prop := s.halted = false ∧ aligned s.pc = true ∧ s.Inv

/-- The step has a successor: the machine is halted, or the memory gives the fetch and the store, if
there is one, a meaning (R37, R173). A run is safe when each of its states meets this. -/
def State.canStep (s : State) : Bool :=
  s.halted ||
    match s.wordAt s.pc with
    | some w => (s.storeOf (decodeWord w)).all fun (a, v) => (writePort s.cfg s.mem a v).isSome
    | none => false

/-! ### The unsupported words (R65 sets 3 and 4) -/

/-- The opcode is none of the seven the core knows (R141). -/
abbrev unsupportedOpcodeWord (w : Word) : Prop :=
  fieldOpcode w ∉ [0x00#7, 0x13#7, 0x17#7, 0x23#7, 0x33#7, 0x37#7, 0x63#7]

/-- The opcode carries a function code and this one has no operation (R143 to R146). -/
abbrev unsupportedFunctWord (w : Word) : Prop :=
  (fieldOpcode w = 0x13#7 ∧
    (fieldFunct3 w ∈ [2#3, 3#3, 4#3, 5#3, 6#3, 7#3] ∨
      (fieldFunct3 w = 1#3 ∧ fieldFunct7 w ≠ 0x00#7))) ∨
  (fieldOpcode w = 0x33#7 ∧
    (fieldFunct3 w, fieldFunct7 w) ∉
      [(0#3, 0x00#7), (0#3, 0x20#7), (1#3, 0x00#7), (2#3, 0x00#7), (4#3, 0x00#7), (5#3, 0x00#7),
        (5#3, 0x20#7), (6#3, 0x00#7), (7#3, 0x00#7)]) ∨
  (fieldOpcode w = 0x23#7 ∧ fieldFunct3 w ∈ [0#3, 1#3, 3#3, 4#3, 5#3, 6#3, 7#3]) ∨
  (fieldOpcode w = 0x63#7 ∧ fieldFunct3 w ∈ [2#3, 3#3, 6#3, 7#3])

/-! ### What an instruction reads and writes (the table of R13) -/

/-- The register written. -/
def destReg : Instr → Option RegIdx
  | .hlt => none
  | .lui rd _ => some rd
  | .auipc rd _ => some rd
  | .addi rd _ _ => some rd
  | .slli rd _ _ => some rd
  | .add rd _ _ => some rd
  | .sub rd _ _ => some rd
  | .sll rd _ _ => some rd
  | .slt rd _ _ => some rd
  | .xor rd _ _ => some rd
  | .srl rd _ _ => some rd
  | .sra rd _ _ => some rd
  | .or rd _ _ => some rd
  | .and rd _ _ => some rd
  | .sw _ _ _ => none
  | .beq _ _ _ => none
  | .bne _ _ _ => none
  | .blt _ _ _ => none
  | .bge _ _ _ => none

/-- The registers read. -/
def sourceRegs : Instr → List RegIdx
  | .hlt => []
  | .lui _ _ => []
  | .auipc _ _ => []
  | .addi _ rs1 _ => [rs1]
  | .slli _ rs1 _ => [rs1]
  | .add _ rs1 rs2 => [rs1, rs2]
  | .sub _ rs1 rs2 => [rs1, rs2]
  | .sll _ rs1 rs2 => [rs1, rs2]
  | .slt _ rs1 rs2 => [rs1, rs2]
  | .xor _ rs1 rs2 => [rs1, rs2]
  | .srl _ rs1 rs2 => [rs1, rs2]
  | .sra _ rs1 rs2 => [rs1, rs2]
  | .or _ rs1 rs2 => [rs1, rs2]
  | .and _ rs1 rs2 => [rs1, rs2]
  | .sw rs1 rs2 _ => [rs1, rs2]
  | .beq rs1 rs2 _ => [rs1, rs2]
  | .bne rs1 rs2 _ => [rs1, rs2]
  | .blt rs1 rs2 _ => [rs1, rs2]
  | .bge rs1 rs2 _ => [rs1, rs2]

/-- The register a decoded word writes: none for an unsupported one (R13). -/
def destOf : Decoded → Option RegIdx
  | .instr i => destReg i
  | .unsupportedOpcode _ => none
  | .unsupportedFunct _ => none

/-- The registers a decoded word reads: none for an unsupported one (R13). -/
def sourcesOf : Decoded → List RegIdx
  | .instr i => sourceRegs i
  | .unsupportedOpcode _ => []
  | .unsupportedFunct _ => []

/-! ### Frames -/

/-- Every byte of memory reads as before. -/
def MemKept (s t : State) : Prop := ∀ a : Nat, t.mem.read a = s.mem.read a

/-- Every byte of memory outside the four at `a` to `a + 3` modulo 2^32 reads as before. -/
def MemKeptOutside (a : Word) (s t : State) : Prop :=
  ∀ b : Nat, b ≠ a.toNat → b ≠ (a + 1#32).toNat → b ≠ (a + 2#32).toNat → b ≠ (a + 3#32).toNat →
    t.mem.read b = s.mem.read b

/-- Every stored register is as before. -/
def RegsKept (s t : State) : Prop := ∀ r : RegIdx, t.stored r = s.stored r

/-- Every stored register but `rd` is as before, and `rd` too when it is the hard-wired zero. -/
def RegsKeptBut (rd : RegIdx) (s t : State) : Prop :=
  ∀ r : RegIdx, r ≠ rd ∨ (s.cfg.x0Hardwired = true ∧ rd = 0#5) → t.stored r = s.stored r

/-- The status flags, the halted flag and the configuration are as before. -/
def ControlKept (s t : State) : Prop :=
  t.statusFlags = s.statusFlags ∧ t.halted = s.halted ∧ t.cfg = s.cfg

/-- No diagnostic was raised and the memory port was not used. -/
def OutputsKept (s t : State) : Prop := t.diag = s.diag ∧ t.accesses = s.accesses

/-- From `s` to `t` register `rd` was written with `v` and the PC moved on by 4, modulo 2^32: nothing
else changed. The hard-wired zero reads 0 and keeps what it holds (R12). -/
def WritesOnly (rd : RegIdx) (v : Word) (s t : State) : Prop :=
  t.x rd = (if s.cfg.x0Hardwired = true ∧ rd = 0#5 then 0#32 else v) ∧
  t.pc.toNat = (s.pc.toNat + 4) % 2 ^ 32 ∧
  RegsKeptBut rd s t ∧ MemKept s t ∧ ControlKept s t ∧ OutputsKept s t

/-- An execution that ends with register `rd` reading as `v`, or as 0 where it is the hard-wired zero
(R12, R190). -/
def Leaves (r : Result) (rd : RegIdx) (v : Word) : Prop :=
  ∃ t, r = .next t ∧ t.x rd = if t.cfg.x0Hardwired = true ∧ rd = 0#5 then 0#32 else v

/-- An execution that ends with the PC at `a` (R190). -/
def GoesTo (r : Result) (a : Word) : Prop := ∃ t, r = .next t ∧ t.pc = a

/-- A skipped word (R141, R142) from `s` to `t`: the PC moved on by 4, the diagnostic `d` was raised,
the fetch was the one use of the memory port, and nothing else changed. -/
def Skipped (d : Diag) (s t : State) : Prop :=
  t.pc.toNat = (s.pc.toNat + 4) % 2 ^ 32 ∧ t.diag = d ∧ t.accesses = [.read s.pc] ∧
  RegsKept s t ∧ MemKept s t ∧ ControlKept s t

/-- From `s` to `t` only the PC changed. -/
def OnlyPcChanged (s t : State) : Prop :=
  RegsKept s t ∧ MemKept s t ∧ ControlKept s t ∧ OutputsKept s t

end Sys2Proof.Machine
end

