-- ==== Sys2Proof/Certificates/Slice0/Obligations.lean ====
section
/-! DEFINITION. The statements for the provers, from the numbered rules of spec/; OBLIGATIONS.json lists
them. Frames (`WritesOnly`, `OnlyPcChanged`, `Skipped`, `MemKeptOutside`) are in Sys2Proof/Safety.lean. -/

open Sys2Proof Sys2Proof.Machine

/-- O1. The decoder vectors of spec/95_test_vectors.md section 2.1, at least one word per class. -/
def Obligations.SpecWordsDecodeToTheirInstructions : Prop :=
  decodeWord 0x000AB0B7#32 = .instr (.lui 1#5 0x000AB000#32) ∧
  decodeWord 0x00001117#32 = .instr (.auipc 2#5 0x00001000#32) ∧
  decodeWord 0xFFF08113#32 = .instr (.addi 2#5 1#5 0xFFFFFFFF#32) ∧
  decodeWord 0x01F09113#32 = .instr (.slli 2#5 1#5 0x0000001F#32) ∧
  decodeWord 0x002081B3#32 = .instr (.add 3#5 1#5 2#5) ∧
  decodeWord 0x4020D1B3#32 = .instr (.sra 3#5 1#5 2#5) ∧
  decodeWord 0xFE20AE23#32 = .instr (.sw 1#5 2#5 0xFFFFFFFC#32) ∧
  decodeWord 0x7E208FE3#32 = .instr (.beq 1#5 2#5 0x00000FFE#32) ∧
  decodeWord 0xFE209EE3#32 = .instr (.bne 1#5 2#5 0xFFFFFFFC#32) ∧
  decodeWord 0xFFFFFF80#32 = .instr .hlt ∧
  decodeWord 0x0000007F#32 = .unsupportedOpcode 0x7F#7 ∧
  decodeWord 0x40409113#32 = .unsupportedFunct ⟨0x13#7, 2#5, 1#5, 0#5, 1#3, 0x20#7, 0x00000004#32⟩

/-- O2. Every instruction, every operand value the encoding admits. -/
def Obligations.DecodingAnEncodedInstructionGivesItBack : Prop :=
  ∀ i : Instr, i.wellFormed = true → decodeWord (encode i) = .instr i

/-- O3. The round trip on decoded records, supported or not; its second and third clauses are the
spec's own inference (40_decoder.md section 4). -/
def Obligations.ReencodingADecodedWordGivesItBack : Prop :=
  (∀ w : Word, fieldOpcode w ∈ [0x37#7, 0x17#7, 0x13#7, 0x33#7, 0x23#7, 0x63#7] →
    encodeRecord (decode w) = w ∧ ∀ v : Word, decode v = decode w → v = w) ∧
  ∀ v w : Word, fieldOpcode w ∉ [0x37#7, 0x17#7, 0x13#7, 0x33#7, 0x23#7, 0x63#7] →
    fieldOpcode v = fieldOpcode w → decode v = decode w

/-- O4. The operand ranges of R58 to R62 hold of every decoded instruction. -/
def Obligations.DecodedInstructionsAreWellFormed : Prop :=
  ∀ (w : Word) (i : Instr), decodeWord w = .instr i → i.wellFormed = true

/-- O5. The list of R64 (its masks are the spec's own inference, so no rule is cited). -/
def Obligations.OpcodeTableDecidesTheInstruction : Prop :=
  (∀ (w : Word) (r : OpcodeRow), r ∈ opcodeTable →
    (w &&& r.mask = r.matchWord ↔ ∃ i, decodeWord w = .instr i ∧ i.row = r)) ∧
  (∀ (w : Word) (r q : OpcodeRow), r ∈ opcodeTable → q ∈ opcodeTable →
    w &&& r.mask = r.matchWord → w &&& q.mask = q.matchWord → r = q) ∧
  ∀ w : Word, (∀ r ∈ opcodeTable, w &&& r.mask ≠ r.matchWord) → ∀ i, decodeWord w ≠ .instr i

/-- O6. R65. The two sets of unsupported words are written out in Sys2Proof/Safety.lean from the
lists of the rule. -/
def Obligations.EveryWordFallsInOneOfFourSets : Prop :=
  (∀ w : Word,
    (decodeWord w = .instr .hlt ↔ fieldOpcode w = 0#7) ∧
    ((∃ i, i ≠ .hlt ∧ decodeWord w = .instr i) ↔
      ∃ r ∈ opcodeTable.tail, w &&& r.mask = r.matchWord) ∧
    ((∃ d, decodeWord w = .unsupportedFunct d) ↔ unsupportedFunctWord w) ∧
    ((∃ op, decodeWord w = .unsupportedOpcode op) ↔ unsupportedOpcodeWord w)) ∧
  ∀ (s : State) (w : Word), s.halted = false → s.wordAt s.pc = some w →
    unsupportedFunctWord w ∨ unsupportedOpcodeWord w →
    ∃ t d, step s = .next t ∧ d ≠ Diag.none ∧ Skipped d s t

/-- O7. R92, both instances the decoder uses, and the classes they are used in. -/
def Obligations.SignExtensionFillsWithTheSignBit : Prop :=
  (∀ v : BitVec 12,
    sext v = (if v.getLsbD 11 then v.setWidth 32 ||| 0xFFFFF000#32 else v.setWidth 32) ∧
    (sext v).toInt = if v.toNat ≥ 2048 then (v.toNat : Int) - 4096 else v.toNat) ∧
  (∀ v : BitVec 13,
    sext v = (if v.getLsbD 12 then v.setWidth 32 ||| 0xFFFFE000#32 else v.setWidth 32) ∧
    (sext v).toInt = if v.toNat ≥ 4096 then (v.toNat : Int) - 8192 else v.toNat) ∧
  ∀ w : Word,
    ((fieldOpcode w = 0x13#7 ∧ fieldFunct3 w ≠ 1#3) ∨ fieldOpcode w = 0x23#7 ∨
        fieldOpcode w = 0x63#7 →
      (decode w).immediate.getLsbD 31 = w.getLsbD 31) ∧
    (fieldOpcode w = 0x13#7 → fieldFunct3 w = 1#3 →
      (decode w).immediate.toNat = (w.toNat / 2 ^ 20) % 32) ∧
    (fieldOpcode w = 0x37#7 ∨ fieldOpcode w = 0x17#7 →
      (decode w).immediate.toNat = w.toNat - w.toNat % 4096)

/-- O8. R58 to R61, bit by bit; the ranges the rules give follow from the bits. -/
def Obligations.ImmediatesAreAssembledBitByBit : Prop :=
  ∀ (w : Word) (k : Nat), k < 32 →
    (fieldOpcode w = 0x13#7 → fieldFunct3 w ≠ 1#3 →
      (decode w).immediate.getLsbD k = if k < 12 then w.getLsbD (20 + k) else w.getLsbD 31) ∧
    (fieldOpcode w = 0x13#7 → fieldFunct3 w = 1#3 →
      (decode w).immediate.getLsbD k = if k < 5 then w.getLsbD (20 + k) else false) ∧
    (fieldOpcode w = 0x23#7 →
      (decode w).immediate.getLsbD k =
        if k < 5 then w.getLsbD (7 + k) else if k < 12 then w.getLsbD (20 + k) else w.getLsbD 31) ∧
    (fieldOpcode w = 0x63#7 →
      (decode w).immediate.getLsbD k =
        if k = 0 then false else if k < 5 then w.getLsbD (7 + k)
        else if k < 11 then w.getLsbD (20 + k) else if k = 11 then w.getLsbD 7
        else w.getLsbD 31)

/-- O9. R81, R82, R84, R86 and R87. -/
def Obligations.DecodedRecordOfHltUpperShiftAndRegisterWords : Prop :=
  ∀ w : Word, (decode w).opcode = w.extractLsb' 0 7 ∧
    (w.extractLsb' 0 7 = 0x00#7 → decode w = ⟨0x00#7, 0#5, 0#5, 0#5, 0#3, 0#7, 0#32⟩) ∧
    (∀ op, op = 0x37#7 ∨ op = 0x17#7 → w.extractLsb' 0 7 = op →
      decode w = ⟨op, w.extractLsb' 7 5, 0#5, 0#5, 0#3, 0#7, w &&& 0xFFFFF000#32⟩) ∧
    (w.extractLsb' 0 7 = 0x13#7 → w.extractLsb' 12 3 = 1#3 →
      decode w = ⟨0x13#7, w.extractLsb' 7 5, w.extractLsb' 15 5, 0#5, 1#3, w.extractLsb' 25 7,
        (w.extractLsb' 20 5).setWidth 32⟩) ∧
    (w.extractLsb' 0 7 = 0x33#7 →
      decode w = ⟨0x33#7, w.extractLsb' 7 5, w.extractLsb' 15 5, w.extractLsb' 20 5,
        w.extractLsb' 12 3, w.extractLsb' 25 7, 0#32⟩)

/-- O10. R85, R88, R89 and R90; the zero fill is the spec's own decision (D16, D20), so no rule is
cited. -/
def Obligations.DecodedRecordZeroFillOfImmediateClasses : Prop :=
  ∀ w : Word,
    (w.extractLsb' 0 7 = 0x13#7 → w.extractLsb' 12 3 ≠ 1#3 →
      decode w = ⟨0x13#7, w.extractLsb' 7 5, w.extractLsb' 15 5, 0#5, w.extractLsb' 12 3, 0#7,
        (w.extractLsb' 20 12).signExtend 32⟩) ∧
    (w.extractLsb' 0 7 = 0x23#7 →
      decode w = ⟨0x23#7, 0#5, w.extractLsb' 15 5, w.extractLsb' 20 5, w.extractLsb' 12 3, 0#7,
        (w.extractLsb' 25 7 ++ w.extractLsb' 7 5).signExtend 32⟩) ∧
    (w.extractLsb' 0 7 = 0x63#7 →
      decode w = ⟨0x63#7, 0#5, w.extractLsb' 15 5, w.extractLsb' 20 5, w.extractLsb' 12 3, 0#7,
        (w.extractLsb' 31 1 ++ w.extractLsb' 7 1 ++ w.extractLsb' 25 6 ++ w.extractLsb' 8 4 ++
          0#1).signExtend 32⟩) ∧
    (w.extractLsb' 0 7 ∉ [0x00#7, 0x37#7, 0x17#7, 0x13#7, 0x33#7, 0x23#7, 0x63#7] →
      decode w = ⟨w.extractLsb' 0 7, 0#5, 0#5, 0#5, 0#3, 0#7, 0#32⟩)

/-- O11. Section 8 of 10_state.md and the defaults of R5. Only the halted flag's value is the
source's. The others are the spec's decisions: D1, D7, D8, D9 (log entries 1 and 3), the reference
memory D10 (log entries 12 and 18), the policy refuse D12 (log entry 2), the memory an argument D13;
the empty memory is log entry 4. -/
def Obligations.ResetLeavesTheStatedValues : Prop :=
  (∀ (c : Config) (m : Memory),
    (State.afterReset c m).halted = false ∧ (State.afterReset c m).pc = c.resetPc ∧
    (∀ r : RegIdx, (State.afterReset c m).stored r =
      if c.x0Hardwired = true ∧ r = 0#5 then 0#32 else c.initRegs[r.toNat]'r.isLt) ∧
    (State.afterReset c m).statusFlags = List.replicate c.nflags false ∧
    (State.afterReset c m).mem = m) ∧
  State.reset.pc = 0#32 ∧ (∀ r : RegIdx, State.reset.stored r = 0#32) ∧
  State.reset.statusFlags = [] ∧ State.reset.mem = [] ∧
  State.reset.cfg.x0Hardwired = true ∧ State.reset.cfg.memory = .refMem ∧
  State.reset.cfg.misaligned = .refuse

/-- O12. R186. -/
def Obligations.ResetDoesNotTouchTheMemory : Prop :=
  (∀ (p : PortsIn) (s : State), p.rst = true → ∃ t, clockEdge p s = .next t ∧ t.mem = s.mem) ∧
  (∀ (c : Config) (m : Memory), (State.afterReset c m).mem = m) ∧
  ∀ s t : State, step s = .next t →
    (s.halted = true ∨
      ∀ w rs1 rs2 imm, s.wordAt s.pc = some w → decodeWord w ≠ .instr (.sw rs1 rs2 imm)) →
    t.mem = s.mem

/-- O13. The base case of the invariant; the canonical form is the model's (log entry 5). -/
def Obligations.InvariantHoldsAfterReset : Prop :=
  (∀ (c : Config) (m : Memory), m.wf → (State.afterReset c m).Inv) ∧ State.reset.Inv

/-- O14. Every step, from every state with the invariant, not only runs from reset. -/
def Obligations.EveryStepKeepsTheInvariant : Prop :=
  ∀ s t : State, s.Inv → step s = .next t → t.Inv ∧ t.cfg = s.cfg

/-- O15. R12, both values of the parameter (the spec's decision D1, so no rule is cited). -/
def Obligations.RegisterZeroFollowsTheParameter : Prop :=
  ∀ (s : State) (i : RegIdx) (v : Word),
    (s.cfg.x0Hardwired = true ∧ i = 0#5 → s.x i = 0#32 ∧ s.setX i v = s) ∧
    (¬(s.cfg.x0Hardwired = true ∧ i = 0#5) →
      s.x i = s.stored i ∧ (s.setX i v).x i = v ∧
      (∀ r, r ≠ i → (s.setX i v).stored r = s.stored r) ∧
      (s.setX i v).pc = s.pc ∧ (s.setX i v).mem = s.mem ∧
      (s.setX i v).statusFlags = s.statusFlags ∧ (s.setX i v).halted = s.halted)

/-- O16. The table of R13 (destOf and sourcesOf of Sys2Proof/Safety.lean), in both its columns. -/
def Obligations.RegistersReadAndWrittenAreThoseOfTheTable : Prop :=
  (∀ (d : Decoded) (s t : State), execDecoded d s = .next t →
    ∀ r : RegIdx, destOf d ≠ some r → t.stored r = s.stored r) ∧
  ∀ (d : Decoded) (s : State) (regs : Vector Word 32),
    (∀ r ∈ sourcesOf d, State.x { s with regs := regs } r = s.x r) →
    (∃ t t', execDecoded d s = .next t ∧ execDecoded d { s with regs := regs } = .next t' ∧
      t'.pc = t.pc ∧ t'.mem = t.mem ∧ t'.halted = t.halted ∧ t'.statusFlags = t.statusFlags ∧
      t'.diag = t.diag ∧ t'.accesses = t.accesses ∧
      ∀ rd, destOf d = some rd → t'.x rd = t.x rd) ∨
    ∃ why, execDecoded d s = .refused why ∧ execDecoded d { s with regs := regs } = .refused why

/-- O17. Section 4 of 10_state.md, partly the spec's own inference. -/
def Obligations.StatusFlagsNeverChangeAndNeverMatter : Prop :=
  ∀ (s : State) (fl : List Bool),
    (∀ t, step s = .next t → t.statusFlags = s.statusFlags ∧ t.cfg = s.cfg ∧
      step { s with statusFlags := fl } = .next { t with statusFlags := fl }) ∧
    ∀ why, step s = .refused why → step { s with statusFlags := fl } = .refused why

/-- O18. R25 ("a later step does not see it", decision D15), for the model's two output fields (log
entry 6). -/
def Obligations.StepOutputsAreNotReadByALaterStep : Prop :=
  ∀ (s : State) (d : Diag) (as : List Access), step { s with diag := d, accesses := as } = step s

/-- O19. R150, the two-state machine of the Step Controller. -/
def Obligations.OnlyHltHaltsAndOnlyResetResumes : Prop :=
  (∀ (c : Config) (m : Memory), (State.afterReset c m).halted = false) ∧
  (∀ s t : State, step s = .next t →
    (t.halted = true ↔
      s.halted = true ∨ ∃ w, s.wordAt s.pc = some w ∧ fieldOpcode w = 0#7)) ∧
  ∀ (p : PortsIn) (s t : State), clockEdge p s = .next t →
    s.halted = true → t.halted = false → p.rst = true

/-- O20. R34, the contract of the port, over every memory and every address. -/
def Obligations.WordReadBackIsTheWordWritten : Prop :=
  (∀ (c : Config) (m n : Memory) (a v : Word), m.wf →
    writePort c m a v = some n → readPort c n a = some v) ∧
  (∀ (m : Memory) (a v : Word), m.wf → (m.write32 a v).read32 a = v) ∧
  ∀ (s t : State) (a w : Word), s.memRead a = some (w, t) →
    t.mem = s.mem ∧ t.regs = s.regs ∧ t.pc = s.pc ∧ ControlKept s t ∧ t.diag = s.diag

/-- O21. R39. That the word at a is then v says of each of its four bytes which it is. -/
def Obligations.MemoryAccessesHaveNoSideEffect : Prop :=
  (∀ (s t u : State) (a v w : Word), s.memRead a = some (v, t) → t.memRead a = some (w, u) →
    w = v ∧ t.mem = s.mem ∧ u.mem = s.mem) ∧
  ∀ (s t : State) (a v : Word), s.cfg.memory = .refMem → s.memWrite a v = some t →
    MemKeptOutside a s t ∧
    (s.mem.wf → t.mem.read32 a = v)

/-- O22. R35 and R36; the byte order is the spec's own decision D11. -/
def Obligations.WordsAreStoredLittleEndian : Prop :=
  ∀ (m : Memory) (a v : Word) (k : Nat), m.wf → k < 4 →
    ((m.write32 a v).read ((a.toNat + k) % 2 ^ 32)).toNat = (v.toNat / 2 ^ (8 * k)) % 256 ∧
    ((m.read32 a).toNat / 2 ^ (8 * k)) % 256 = (m.read ((a.toNat + k) % 2 ^ 32)).toNat

/-- O23. R191. -/
def Obligations.AStoreIsSeenByEveryLaterFetch : Prop :=
  ∀ (s : State) (w : Word) (rs1 rs2 : RegIdx) (imm : Word), s.mem.wf → s.halted = false →
    s.wordAt s.pc = some w → decodeWord w = .instr (.sw rs1 rs2 imm) →
    (writePort s.cfg s.mem (s.effAddr rs1 imm) (s.x rs2)).isSome = true →
    ∃ t, step s = .next t ∧ t.pc.toNat = (s.pc.toNat + 4) % 2 ^ 32 ∧ t.halted = false ∧
      ∀ u : State, u.mem = t.mem → u.cfg = t.cfg → u.pc = s.effAddr rs1 imm →
        ∃ f, u.fetch = some (s.x rs2, f)

/-- O24. R100 (LUI): encoding, result and frame. -/
def Obligations.LuiPlacesTheUpperImmediate : Prop :=
  (∀ w : Word, w &&& 0x0000007F#32 = 0x00000037#32 →
    decodeWord w = .instr (Instr.lui (w.extractLsb' 7 5) (w &&& 0xFFFFF000#32))) ∧
  ∀ (rd : RegIdx) (imm : Word) (s : State),
    ∃ t, exec (.lui rd imm) s = .next t ∧ WritesOnly rd imm s t

/-- O25. R101 (AUIPC): encoding, result and frame. -/
def Obligations.AuipcAddsTheImmediateToItsOwnAddress : Prop :=
  (∀ w : Word, w &&& 0x0000007F#32 = 0x00000017#32 →
    decodeWord w = .instr (Instr.auipc (w.extractLsb' 7 5) (w &&& 0xFFFFF000#32))) ∧
  ∀ (rd : RegIdx) (imm : Word) (s : State),
    ∃ v t, v.toNat = (s.pc.toNat + imm.toNat) % 2 ^ 32 ∧
      exec (.auipc rd imm) s = .next t ∧ WritesOnly rd v s t

/-- O26. R105 (ADDI): encoding, result and frame. -/
def Obligations.AddiAddsTheSignedImmediate : Prop :=
  (∀ w : Word, w &&& 0x0000707F#32 = 0x00000013#32 →
    decodeWord w = .instr (Instr.addi (w.extractLsb' 7 5) (w.extractLsb' 15 5) ((w.extractLsb' 20 12).signExtend 32))) ∧
  ∀ (rd rs1 : RegIdx) (imm : Word) (s : State),
    ∃ v t, v.toNat = ((s.x rs1).toNat + imm.toNat) % 2 ^ 32 ∧
      exec (.addi rd rs1 imm) s = .next t ∧ WritesOnly rd v s t

/-- O27. R106 (SLLI): encoding, result and frame. A shift word whose funct7 is not 0 is an
unsupported function code, which is the spec's own decision D21. -/
def Obligations.SlliShiftsLeftByTheImmediate : Prop :=
  (∀ w : Word, w &&& 0x0000707F#32 = 0x00001013#32 → w.extractLsb' 25 7 ≠ 0#7 →
    ∃ d, decodeWord w = .unsupportedFunct d) ∧
  (∀ w : Word, w &&& 0xFE00707F#32 = 0x00001013#32 →
    decodeWord w = .instr (Instr.slli (w.extractLsb' 7 5) (w.extractLsb' 15 5) ((w.extractLsb' 20 5).setWidth 32))) ∧
  ∀ (rd rs1 : RegIdx) (imm : Word) (s : State),
    ∃ v t, v.toNat = (s.x rs1).toNat * 2 ^ imm.toNat % 2 ^ 32 ∧
      exec (.slli rd rs1 imm) s = .next t ∧ WritesOnly rd v s t

/-- O28. R110 (ADD): encoding, result and frame. -/
def Obligations.AddIsTheSumModulo : Prop :=
  (∀ w : Word, w &&& 0xFE00707F#32 = 0x00000033#32 →
    decodeWord w = .instr (Instr.add (w.extractLsb' 7 5) (w.extractLsb' 15 5) (w.extractLsb' 20 5))) ∧
  ∀ (rd rs1 rs2 : RegIdx) (s : State),
    ∃ v t, v.toNat = ((s.x rs1).toNat + (s.x rs2).toNat) % 2 ^ 32 ∧
      exec (.add rd rs1 rs2) s = .next t ∧ WritesOnly rd v s t

/-- O29. R111 (SUB): encoding, result and frame. -/
def Obligations.SubIsTheDifferenceModulo : Prop :=
  (∀ w : Word, w &&& 0xFE00707F#32 = 0x40000033#32 →
    decodeWord w = .instr (Instr.sub (w.extractLsb' 7 5) (w.extractLsb' 15 5) (w.extractLsb' 20 5))) ∧
  ∀ (rd rs1 rs2 : RegIdx) (s : State),
    ∃ v t, (v.toNat : Int) = ((s.x rs1).toNat - (s.x rs2).toNat : Int) % 2 ^ 32 ∧
      exec (.sub rd rs1 rs2) s = .next t ∧ WritesOnly rd v s t

/-- O30. R112 (SLL): encoding, result and frame. -/
def Obligations.SllShiftsLeftByTheLowFiveBits : Prop :=
  (∀ w : Word, w &&& 0xFE00707F#32 = 0x00001033#32 →
    decodeWord w = .instr (Instr.sll (w.extractLsb' 7 5) (w.extractLsb' 15 5) (w.extractLsb' 20 5))) ∧
  ∀ (rd rs1 rs2 : RegIdx) (s : State),
    ∃ v t, v.toNat = (s.x rs1).toNat * 2 ^ ((s.x rs2).toNat % 32) % 2 ^ 32 ∧
      exec (.sll rd rs1 rs2) s = .next t ∧ WritesOnly rd v s t

/-- O31. R113 (SLT): encoding, result and frame. -/
def Obligations.SltComparesSigned : Prop :=
  (∀ w : Word, w &&& 0xFE00707F#32 = 0x00002033#32 →
    decodeWord w = .instr (Instr.slt (w.extractLsb' 7 5) (w.extractLsb' 15 5) (w.extractLsb' 20 5))) ∧
  ∀ (rd rs1 rs2 : RegIdx) (s : State),
    ∃ v t, v.toNat = (if (s.x rs1).toInt < (s.x rs2).toInt then 1 else 0) ∧
      exec (.slt rd rs1 rs2) s = .next t ∧ WritesOnly rd v s t

/-- O32. R114 (XOR): encoding, result and frame. -/
def Obligations.XorIsBitwise : Prop :=
  (∀ w : Word, w &&& 0xFE00707F#32 = 0x00004033#32 →
    decodeWord w = .instr (Instr.xor (w.extractLsb' 7 5) (w.extractLsb' 15 5) (w.extractLsb' 20 5))) ∧
  ∀ (rd rs1 rs2 : RegIdx) (s : State),
    ∃ v t, (∀ k < 32, v.getLsbD k = ((s.x rs1).getLsbD k != (s.x rs2).getLsbD k)) ∧
      exec (.xor rd rs1 rs2) s = .next t ∧ WritesOnly rd v s t

/-- O33. R115 (SRL): encoding, result and frame. -/
def Obligations.SrlFillsWithZeros : Prop :=
  (∀ w : Word, w &&& 0xFE00707F#32 = 0x00005033#32 →
    decodeWord w = .instr (Instr.srl (w.extractLsb' 7 5) (w.extractLsb' 15 5) (w.extractLsb' 20 5))) ∧
  ∀ (rd rs1 rs2 : RegIdx) (s : State),
    ∃ v t, v.toNat = (s.x rs1).toNat / 2 ^ ((s.x rs2).toNat % 32) ∧
      exec (.srl rd rs1 rs2) s = .next t ∧ WritesOnly rd v s t

/-- O34. R116 (SRA): encoding, result and frame. That the shift fills with the sign is the spec's
own reading of the source (U5, log entry 17). -/
def Obligations.SraFillsWithTheSign : Prop :=
  (∀ w : Word, w &&& 0xFE00707F#32 = 0x40005033#32 →
    decodeWord w = .instr (Instr.sra (w.extractLsb' 7 5) (w.extractLsb' 15 5) (w.extractLsb' 20 5))) ∧
  ∀ (rd rs1 rs2 : RegIdx) (s : State),
    ∃ v t, v.toInt = (s.x rs1).toInt / 2 ^ ((s.x rs2).toNat % 32) ∧
      exec (.sra rd rs1 rs2) s = .next t ∧ WritesOnly rd v s t

/-- O35. R117 (OR): encoding, result and frame. -/
def Obligations.OrIsBitwise : Prop :=
  (∀ w : Word, w &&& 0xFE00707F#32 = 0x00006033#32 →
    decodeWord w = .instr (Instr.or (w.extractLsb' 7 5) (w.extractLsb' 15 5) (w.extractLsb' 20 5))) ∧
  ∀ (rd rs1 rs2 : RegIdx) (s : State),
    ∃ v t, (∀ k < 32, v.getLsbD k = ((s.x rs1).getLsbD k || (s.x rs2).getLsbD k)) ∧
      exec (.or rd rs1 rs2) s = .next t ∧ WritesOnly rd v s t

/-- O36. R118 (AND): encoding, result and frame. -/
def Obligations.AndIsBitwise : Prop :=
  (∀ w : Word, w &&& 0xFE00707F#32 = 0x00007033#32 →
    decodeWord w = .instr (Instr.and (w.extractLsb' 7 5) (w.extractLsb' 15 5) (w.extractLsb' 20 5))) ∧
  ∀ (rd rs1 rs2 : RegIdx) (s : State),
    ∃ v t, (∀ k < 32, v.getLsbD k = ((s.x rs1).getLsbD k && (s.x rs2).getLsbD k)) ∧
      exec (.and rd rs1 rs2) s = .next t ∧ WritesOnly rd v s t

/-- O37. R125: encoding, effect, frame and the corner case of the misaligned address. effAddr is the
function the meaning stores at. R125 does not give the refusal where another memory defines no write
(U8, D10, log entry 18); that of a misaligned address is the policy of D12 (log entry 2), and the
canonical form is log entry 5. -/
def Obligations.SwStoresTheWordAndNothingElse : Prop :=
  (∀ w : Word, w &&& 0x0000707F#32 = 0x00002023#32 →
    decodeWord w = .instr (Instr.sw (w.extractLsb' 15 5) (w.extractLsb' 20 5) ((w.extractLsb' 25 7 ++ w.extractLsb' 7 5).signExtend 32))) ∧
  ∀ (rs1 rs2 : RegIdx) (imm : Word) (s : State),
    (s.effAddr rs1 imm).toNat = ((s.x rs1).toNat + imm.toNat) % 2 ^ 32 ∧
    (∀ m, writePort s.cfg s.mem (s.effAddr rs1 imm) (s.x rs2) = some m →
      ∃ t, exec (.sw rs1 rs2 imm) s = .next t ∧ t.mem = m ∧
        RegsKept s t ∧ ControlKept s t ∧ t.pc.toNat = (s.pc.toNat + 4) % 2 ^ 32 ∧
        t.diag = s.diag ∧ t.accesses = s.accesses ++ [.write (s.effAddr rs1 imm) (s.x rs2)]) ∧
    (writePort s.cfg s.mem (s.effAddr rs1 imm) (s.x rs2) = none →
      exec (.sw rs1 rs2 imm) s = .refused (storeRefusal s.cfg (s.effAddr rs1 imm))) ∧
    (s.cfg.memory = .refMem → s.mem.wf →
      (s.cfg.misaligned = .refuse → (s.effAddr rs1 imm).toNat % 4 = 0) →
      ∃ t, exec (.sw rs1 rs2 imm) s = .next t ∧
        t.mem.read32 (s.effAddr rs1 imm) = s.x rs2 ∧ MemKeptOutside (s.effAddr rs1 imm) s t) ∧
    (s.cfg.memory = .refMem → s.cfg.misaligned = .refuse → (s.effAddr rs1 imm).toNat % 4 ≠ 0 →
      exec (.sw rs1 rs2 imm) s = .refused (.misalignedStore (s.effAddr rs1 imm)))

/-- O38. R130 (BEQ): encoding, condition, target and frame. -/
def Obligations.BeqBranchesWhenEqual : Prop :=
  (∀ w : Word, w &&& 0x0000707F#32 = 0x00000063#32 →
    decodeWord w = .instr (Instr.beq (w.extractLsb' 15 5) (w.extractLsb' 20 5)
      ((w.extractLsb' 31 1 ++ w.extractLsb' 7 1 ++ w.extractLsb' 25 6 ++
      w.extractLsb' 8 4 ++ 0#1).signExtend 32))) ∧
  ∀ (rs1 rs2 : RegIdx) (imm : Word) (s : State),
    ∃ t, exec (.beq rs1 rs2 imm) s = .next t ∧ OnlyPcChanged s t ∧
      t.pc.toNat = if s.x rs1 = s.x rs2 then (s.pc.toNat + imm.toNat) % 2 ^ 32
        else (s.pc.toNat + 4) % 2 ^ 32

/-- O39. R131 (BNE): encoding, condition, target and frame. -/
def Obligations.BneBranchesWhenDifferent : Prop :=
  (∀ w : Word, w &&& 0x0000707F#32 = 0x00001063#32 →
    decodeWord w = .instr (Instr.bne (w.extractLsb' 15 5) (w.extractLsb' 20 5)
      ((w.extractLsb' 31 1 ++ w.extractLsb' 7 1 ++ w.extractLsb' 25 6 ++
      w.extractLsb' 8 4 ++ 0#1).signExtend 32))) ∧
  ∀ (rs1 rs2 : RegIdx) (imm : Word) (s : State),
    ∃ t, exec (.bne rs1 rs2 imm) s = .next t ∧ OnlyPcChanged s t ∧
      t.pc.toNat = if s.x rs1 ≠ s.x rs2 then (s.pc.toNat + imm.toNat) % 2 ^ 32
        else (s.pc.toNat + 4) % 2 ^ 32

/-- O40. R132 (BLT): encoding, condition, target and frame. -/
def Obligations.BltBranchesWhenLessSigned : Prop :=
  (∀ w : Word, w &&& 0x0000707F#32 = 0x00004063#32 →
    decodeWord w = .instr (Instr.blt (w.extractLsb' 15 5) (w.extractLsb' 20 5)
      ((w.extractLsb' 31 1 ++ w.extractLsb' 7 1 ++ w.extractLsb' 25 6 ++
      w.extractLsb' 8 4 ++ 0#1).signExtend 32))) ∧
  ∀ (rs1 rs2 : RegIdx) (imm : Word) (s : State),
    ∃ t, exec (.blt rs1 rs2 imm) s = .next t ∧ OnlyPcChanged s t ∧
      t.pc.toNat = if (s.x rs1).toInt < (s.x rs2).toInt then (s.pc.toNat + imm.toNat) % 2 ^ 32
        else (s.pc.toNat + 4) % 2 ^ 32

/-- O41. R133 (BGE): encoding, condition, target and frame. -/
def Obligations.BgeBranchesExactlyWhenBltDoesNot : Prop :=
  (∀ w : Word, w &&& 0x0000707F#32 = 0x00005063#32 →
    decodeWord w = .instr (Instr.bge (w.extractLsb' 15 5) (w.extractLsb' 20 5)
      ((w.extractLsb' 31 1 ++ w.extractLsb' 7 1 ++ w.extractLsb' 25 6 ++
      w.extractLsb' 8 4 ++ 0#1).signExtend 32))) ∧
  (∀ (rs1 rs2 : RegIdx) (imm : Word) (s : State),
    ∃ t, exec (.bge rs1 rs2 imm) s = .next t ∧ OnlyPcChanged s t ∧
      t.pc.toNat = if (s.x rs1).toInt ≥ (s.x rs2).toInt then (s.pc.toNat + imm.toNat) % 2 ^ 32
        else (s.pc.toNat + 4) % 2 ^ 32) ∧
  ∀ (rs1 rs2 : RegIdx) (imm : Word) (s t u : State),
    exec (.bge rs1 rs2 imm) s = .next t → exec (.blt rs1 rs2 imm) s = .next u →
    (t.pc = s.pc + imm ∧ u.pc = s.pc + 4#32) ∨ (t.pc = s.pc + 4#32 ∧ u.pc = s.pc + imm)

/-- O42. R152. The PC left at the HLT word is also the spec's decision D3. -/
def Obligations.HltHaltsAndChangesNothingElse : Prop :=
  (∀ s : State, ∃ t, exec .hlt s = .next t ∧ t.halted = true ∧ t.pc = s.pc ∧ RegsKept s t ∧
    MemKept s t ∧ t.statusFlags = s.statusFlags ∧ t.cfg = s.cfg ∧ OutputsKept s t) ∧
  ∀ (s : State) (w : Word), s.halted = false → s.wordAt s.pc = some w →
    w &&& 0x0000007F#32 = 0x00000000#32 →
    ∃ t, step s = .next t ∧ t.halted = true ∧ t.stepResult = .halted ∧ t.pc = s.pc ∧
      RegsKept s t ∧ MemKept s t ∧ t.statusFlags = s.statusFlags ∧ t.cfg = s.cfg ∧
      t.diag = .none ∧ t.accesses = [.read s.pc]

/-- O43. R151: nothing is added around exec but the fresh outputs of the step (log entry 6). Beside
R151, the byte order of the fetched word is log entry 14 (PRESUMED, D11), the refusal where the
memory defines no read is log entries 2 and 18 (D12, D10), the step while halted is log entry 8 (D4)
and the PC left at HLT is log entry 7 (D3). -/
def Obligations.AStepRunsTheDecodedInstruction : Prop :=
  ∀ s : State,
    (s.halted = true → step s = .next { s with diag := .none, accesses := [] }) ∧
    (s.halted = false → s.wordAt s.pc = none → step s = .refused (fetchRefusal s.cfg s.pc)) ∧
    (s.cfg.memory = .refMem → permits s.cfg s.pc = true → s.wordAt s.pc =
      some (leWord (s.mem.read s.pc.toNat) (s.mem.read (s.pc + 1#32).toNat)
        (s.mem.read (s.pc + 2#32).toNat) (s.mem.read (s.pc + 3#32).toNat))) ∧
    (s.halted = false → ∀ w : Word, s.wordAt s.pc = some w →
      (∀ i, decodeWord w = .instr i →
        step s = exec i { s with diag := .none, accesses := [.read s.pc] }) ∧
      (∀ op, decodeWord w = .unsupportedOpcode op →
        step s = .next { s with
          pc := s.pc + 4#32, diag := .unsupportedOpcode, accesses := [.read s.pc] }) ∧
      (∀ d, decodeWord w = .unsupportedFunct d →
        step s = .next { s with
          pc := s.pc + 4#32, diag := .unsupportedFunct, accesses := [.read s.pc] }) ∧
      (fieldOpcode w = 0#7 →
        step s = .next { s with halted := true, diag := .none, accesses := [.read s.pc] }))

/-- O44. R155, over every fetched word, unsupported ones included. -/
def Obligations.DefaultAdvanceUnlessABranchIsTaken : Prop :=
  ∀ s t : State, s.halted = false → step s = .next t → ∀ w : Word, s.wordAt s.pc = some w →
    (fieldOpcode w = 0#7 → t.pc = s.pc) ∧
    (fieldOpcode w ≠ 0#7 →
      t.pc.toNat =
        if fieldOpcode w = 0x63#7 ∧
          ((fieldFunct3 w = 0#3 ∧ s.x (fieldRs1 w) = s.x (fieldRs2 w)) ∨
            (fieldFunct3 w = 1#3 ∧ s.x (fieldRs1 w) ≠ s.x (fieldRs2 w)) ∨
            (fieldFunct3 w = 4#3 ∧ (s.x (fieldRs1 w)).toInt < (s.x (fieldRs2 w)).toInt) ∨
            (fieldFunct3 w = 5#3 ∧ (s.x (fieldRs1 w)).toInt ≥ (s.x (fieldRs2 w)).toInt))
        then (s.pc.toNat + (immB w).toNat) % 2 ^ 32
        else (s.pc.toNat + 4) % 2 ^ 32)

/-- O45. R141, whatever the upper bits of the word hold. -/
def Obligations.UnsupportedOpcodeIsANoOpWithADiagnostic : Prop :=
  ∀ (s : State) (w : Word), s.halted = false → s.wordAt s.pc = some w →
    unsupportedOpcodeWord w →
    ∃ t, step s = .next t ∧ t.stepResult = .running ∧ Skipped .unsupportedOpcode s t

/-- O46. The effect of R142 on the sets of R144, R145 and R146, written out; opcode 0x13 is the next
statement. -/
def Obligations.UnsupportedFunctionCodeIsANoOpWithADiagnostic : Prop :=
  ∀ (s : State) (w : Word), s.halted = false → s.wordAt s.pc = some w →
    (w.extractLsb' 0 7 = 0x33#7 ∧
      (w.extractLsb' 12 3, w.extractLsb' 25 7) ∉
        [(0#3, 0x00#7), (0#3, 0x20#7), (1#3, 0x00#7), (2#3, 0x00#7), (4#3, 0x00#7),
          (5#3, 0x00#7), (5#3, 0x20#7), (6#3, 0x00#7), (7#3, 0x00#7)]) ∨
    (w.extractLsb' 0 7 = 0x23#7 ∧ w.extractLsb' 12 3 ≠ 2#3) ∨
    (w.extractLsb' 0 7 = 0x63#7 ∧ w.extractLsb' 12 3 ∈ [2#3, 3#3, 6#3, 7#3]) →
    ∃ t, step s = .next t ∧ t.stepResult = .running ∧ Skipped .unsupportedFunct s t

/-- O47. R142 and R143; that a shift with funct7 not 0 is in the set is decision D21 (log entry 9),
so no rule is cited. -/
def Obligations.UnsupportedImmediateFunctionCodeIsANoOpWithADiagnostic : Prop :=
  ∀ (s : State) (w : Word), s.halted = false → s.wordAt s.pc = some w →
    w.extractLsb' 0 7 = 0x13#7 →
    w.extractLsb' 12 3 ∈ [2#3, 3#3, 4#3, 5#3, 6#3, 7#3] ∨
      (w.extractLsb' 12 3 = 1#3 ∧ w.extractLsb' 25 7 ≠ 0x00#7) →
    ∃ t, step s = .next t ∧ t.stepResult = .running ∧ Skipped .unsupportedFunct s t

/-- O48. R167 and R169; the form of the diagnostic is the spec's decision D15. -/
def Obligations.DiagnosticsArePreciselyOfUnsupportedWords : Prop :=
  ∀ s t : State, step s = .next t →
    (t.diag = .unsupportedOpcode ↔
      s.halted = false ∧ ∃ w, s.wordAt s.pc = some w ∧ unsupportedOpcodeWord w) ∧
    (t.diag = .unsupportedFunct ↔
      s.halted = false ∧ ∃ w, s.wordAt s.pc = some w ∧ unsupportedFunctWord w)

/-- O49. R31 and R32; that a halted step does not fetch is decision D4. -/
def Obligations.OneFetchAndAtMostOneStorePerStep : Prop :=
  ∀ s t : State, step s = .next t →
    (s.halted = true → t.accesses = []) ∧
    (s.halted = false → ∀ w, s.wordAt s.pc = some w →
      (∀ rs1 rs2 imm, decodeWord w = .instr (.sw rs1 rs2 imm) →
        t.accesses = [.read s.pc, .write (s.x rs1 + imm) (s.x rs2)]) ∧
      ((∀ rs1 rs2 imm, decodeWord w ≠ .instr (.sw rs1 rs2 imm)) → t.accesses = [.read s.pc]))

/-- O50. R173 and R159, with the memory of R34 (D10, log entry 18) and the policy of R37 (D12). -/
def Obligations.OnlyTheMemoryLeavesAStepWithoutSuccessor : Prop :=
  ∀ s : State,
    ((∃ t, step s = .next t) ∨
      (s.halted = false ∧ s.wordAt s.pc = none ∧ step s = .refused (fetchRefusal s.cfg s.pc)) ∨
      (s.halted = false ∧ ∃ w rs1 rs2 imm,
        s.wordAt s.pc = some w ∧ decodeWord w = .instr (.sw rs1 rs2 imm) ∧
        writePort s.cfg s.mem (s.effAddr rs1 imm) (s.x rs2) = none ∧
        step s = .refused (storeRefusal s.cfg (s.effAddr rs1 imm)))) ∧
    (s.cfg.memory = .refMem →
      ((∃ t, step s = .next t) ∨
        (s.halted = false ∧ s.cfg.misaligned = .refuse ∧ s.pc.toNat % 4 ≠ 0) ∨
        (s.halted = false ∧ s.cfg.misaligned = .refuse ∧ s.pc.toNat % 4 = 0 ∧
          ∃ rs1 rs2 imm, decodeWord (s.mem.read32 s.pc) = .instr (.sw rs1 rs2 imm) ∧
            (s.effAddr rs1 imm).toNat % 4 ≠ 0)) ∧
      (s.halted = false → s.cfg.misaligned = .refuse → s.pc.toNat % 4 ≠ 0 →
        step s = .refused (.misalignedFetch s.pc)) ∧
      (s.halted = false → s.cfg.misaligned = .refuse → s.pc.toNat % 4 = 0 →
        ∀ rs1 rs2 imm, decodeWord (s.mem.read32 s.pc) = .instr (.sw rs1 rs2 imm) →
          (s.effAddr rs1 imm).toNat % 4 ≠ 0 →
          step s = .refused (.misalignedStore (s.effAddr rs1 imm))))

/-- O51. R153, "idempotent", for every number of further steps. -/
def Obligations.AHaltedMachineStaysAsItIs : Prop :=
  ∀ (k : Nat) (s : State), s.halted = true →
    Host.Core.run Sys2Proof.core (k + 1) s = .next { s with diag := .none, accesses := [] }

/-- O52. R158, whose definition of a run is the spec's decision D19, and its fuel D27. -/
def Obligations.ARunEndsAtItsFirstHaltedStateForGood : Prop :=
  (∀ (fuel : Nat) (s f : State) (ds : List Diag), runToHalt fuel s = .ended f ds →
    f.halted = true ∧ ds.length ≤ fuel ∧ Host.Core.run Sys2Proof.core ds.length s = .next f ∧
    (∀ (k : Nat) (u : State), k < ds.length →
      Host.Core.run Sys2Proof.core k s = .next u → u.halted = false) ∧
    (∀ (k : Nat) (u : State), k < ds.length →
      Host.Core.run Sys2Proof.core (k + 1) s = .next u → ds[k]? = some u.diag) ∧
    ∀ more : Nat, runToHalt (fuel + more) s = .ended f ds) ∧
  (∀ (fuel k : Nat) (s f : State), k ≤ fuel → Host.Core.run Sys2Proof.core k s = .next f →
    f.halted = true →
    (∀ (j : Nat) (u : State), j < k →
      Host.Core.run Sys2Proof.core j s = .next u → u.halted = false) →
    ∃ ds, runToHalt fuel s = .ended f ds ∧ ds.length = k) ∧
  ∀ (fuel : Nat) (s u : State) (ds : List Diag), runToHalt fuel s = .outOfFuel u ds →
    u.halted = false ∧ Host.Core.run Sys2Proof.core fuel s = .next u

/-- O53. R190, the read-current, write-next discipline, for every instruction and every aliasing of
its registers. R190 does not give the results: the sign fill of SRA is the spec's own reading (U5,
log entry 17), the hard-wired zero is D1 (log entry 1), the sums modulo 2^32 are D5 (log entry 13),
and the memories covered are those of log entries 5 and 18. -/
def Obligations.SourcesAreReadBeforeTheDestinationIsWritten : Prop :=
  (∀ (rd rs1 rs2 : RegIdx) (imm : Word) (s : State),
    Leaves (exec (.lui rd imm) s) rd (imm) ∧
    Leaves (exec (.auipc rd imm) s) rd (s.pc + imm) ∧
    Leaves (exec (.addi rd rs1 imm) s) rd (s.x rs1 + imm) ∧
    Leaves (exec (.slli rd rs1 imm) s) rd (s.x rs1 <<< imm.toNat) ∧
    Leaves (exec (.add rd rs1 rs2) s) rd (s.x rs1 + s.x rs2) ∧
    Leaves (exec (.sub rd rs1 rs2) s) rd (s.x rs1 - s.x rs2) ∧
    Leaves (exec (.sll rd rs1 rs2) s) rd (s.x rs1 <<< ((s.x rs2).toNat % 32)) ∧
    Leaves (exec (.slt rd rs1 rs2) s) rd (if (s.x rs1).toInt < (s.x rs2).toInt then 1#32 else 0#32) ∧
    Leaves (exec (.xor rd rs1 rs2) s) rd (s.x rs1 ^^^ s.x rs2) ∧
    Leaves (exec (.srl rd rs1 rs2) s) rd (s.x rs1 >>> ((s.x rs2).toNat % 32)) ∧
    Leaves (exec (.sra rd rs1 rs2) s) rd ((s.x rs1).sshiftRight ((s.x rs2).toNat % 32)) ∧
    Leaves (exec (.or rd rs1 rs2) s) rd (s.x rs1 ||| s.x rs2) ∧
    Leaves (exec (.and rd rs1 rs2) s) rd (s.x rs1 &&& s.x rs2) ∧
    GoesTo (exec (.beq rs1 rs2 imm) s) (if s.x rs1 = s.x rs2 then s.pc + imm else s.pc + 4#32) ∧
    GoesTo (exec (.bne rs1 rs2 imm) s) (if s.x rs1 ≠ s.x rs2 then s.pc + imm else s.pc + 4#32) ∧
    GoesTo (exec (.blt rs1 rs2 imm) s) (if (s.x rs1).toInt < (s.x rs2).toInt then s.pc + imm else s.pc + 4#32) ∧
    GoesTo (exec (.bge rs1 rs2 imm) s) (if (s.x rs1).toInt ≥ (s.x rs2).toInt then s.pc + imm else s.pc + 4#32) ∧
    (s.mem.wf → (writePort s.cfg s.mem (s.effAddr rs1 imm) (s.x rs2)).isSome = true →
      ∃ t, exec (.sw rs1 rs2 imm) s = .next t ∧ t.wordAt (s.x rs1 + imm) = some (s.x rs2))) ∧
  ∀ (r : RegIdx) (s : State),
    (¬(s.cfg.x0Hardwired = true ∧ r = 0#5) →
      ∃ t, exec (.add r r r) s = .next t ∧ (t.x r).toNat = 2 * (s.x r).toNat % 2 ^ 32) ∧
    (s.mem.wf → (writePort s.cfg s.mem (s.x r) (s.x r)).isSome = true →
      ∃ t, exec (.sw r r 0#32) s = .next t ∧ t.wordAt (s.x r) = some (s.x r))

/-- O54. R24, R160 and the codes of R167, the spec's own rendering (decision D17); no rule is cited.
The outputs of a cycle that executes no word are the model's choice (log entry 11). -/
def Obligations.PortsShowTheStepOfTheCycle : Prop :=
  (∀ (p : PortsIn) (s : State),
    (portsOut p s).memRaddr = s.pc ∧ (portsOut p s).memRe = (p.stepEn && !s.halted) ∧
    (portsOut p s).halted = s.halted ∧ (portsOut p s).pcO = s.pc ∧
    (portsOut p s).dbgRdata =
      (if s.cfg.x0Hardwired = true ∧ p.dbgRaddr = 0#5 then 0#32 else s.stored p.dbgRaddr) ∧
    (∀ a v : Word, (portsOut p s).memWrite = some (a, v) ↔
      p.stepEn = true ∧ p.rst = false ∧ s.halted = false ∧
      ∃ w rs1 rs2 imm, s.wordAt s.pc = some w ∧ decodeWord w = .instr (.sw rs1 rs2 imm) ∧
        a = s.effAddr rs1 imm ∧ v = s.x rs2) ∧
    (∀ t, p.stepEn = true → p.rst = false → step s = .next t →
      (portsOut p s).diag = t.diag.code) ∧
    (∀ why, step s = .refused why → (portsOut p s).diag = 0#2) ∧
    (p.stepEn = false ∨ p.rst = true ∨ (s.halted = false ∧ s.wordAt s.pc = none) →
      (portsOut p s).diag = 0#2 ∧ (portsOut p s).memWrite = none)) ∧
  Diag.code .none = 0#2 ∧ Diag.code .unsupportedOpcode = 1#2 ∧ Diag.code .unsupportedFunct = 2#2

/-- O55. R160 and R185, the spec's own rendering (decision D17). -/
def Obligations.AClockEdgeResetsStepsOrHolds : Prop :=
  (∀ (p : PortsIn) (s : State),
    (p.rst = true → clockEdge p s = .next (State.afterReset s.cfg s.mem)) ∧
    (p.rst = false → p.stepEn = true → clockEdge p s = step s) ∧
    (p.rst = false → p.stepEn = false → clockEdge p s = .next s)) ∧
  ∀ (p : PortsIn) (s t : State), s.Inv → clockEdge p s = .next t → t.Inv

/-- O56. withFetchWord, the model's stand-in for the loader (log entry 10). -/
def Obligations.APlacedWordIsTheNextInstruction : Prop :=
  ∀ (s : State) (w : Nat), s.mem.wf → w < 2 ^ 32 →
    (s.withFetchWord 32 w).halted = false ∧ RegsKept s (s.withFetchWord 32 w) ∧
    (s.withFetchWord 32 w).statusFlags = s.statusFlags ∧ (s.withFetchWord 32 w).cfg = s.cfg ∧
    (s.cfg.memory ≠ .refMem ∨ permits s.cfg s.pc = true → (s.withFetchWord 32 w).pc = s.pc) ∧
    (s.cfg.memory = .refMem →
      (writePort s.cfg s.mem s.fetchPc (BitVec.ofNat 32 w)).isSome = true) ∧
    ((writePort s.cfg s.mem s.fetchPc (BitVec.ofNat 32 w)).isSome = true →
      ∃ f, (s.withFetchWord 32 w).fetch = some (BitVec.ofNat 32 w, f))
end

