-- ==== Sys2Proof/Laws/Decode.lean ====
section
/-! SUPPORT. The decoder and the encoder, one lemma per function: the record of each class (R84 to
R90), the fields of each encoder's word (R70), the immediates a field can carry and their way through
it, and the masks of R64 read as fields. -/

namespace Sys2Proof

/-! ### The record of each class -/

theorem decode_hlt {w : Word} (h : fieldOpcode w = 0x00#7) : decode w = .bare 0x00#7 := by
  simp [decode, classOf, h]

theorem decode_lui {w : Word} (h : fieldOpcode w = 0x37#7) :
    decode w = ⟨0x37#7, fieldRd w, 0#5, 0#5, 0#3, 0#7, immU w⟩ := by
  simp [decode, classOf, h, DecodedInstruction.bare]

theorem decode_auipc {w : Word} (h : fieldOpcode w = 0x17#7) :
    decode w = ⟨0x17#7, fieldRd w, 0#5, 0#5, 0#3, 0#7, immU w⟩ := by
  simp [decode, classOf, h, DecodedInstruction.bare]

theorem decode_i {w : Word} (h : fieldOpcode w = 0x13#7) (h1 : fieldFunct3 w ≠ 1#3) :
    decode w = ⟨0x13#7, fieldRd w, fieldRs1 w, 0#5, fieldFunct3 w, 0#7, immI w⟩ := by
  simp [decode, classOf, h, h1, DecodedInstruction.bare]

theorem decode_ishift {w : Word} (h : fieldOpcode w = 0x13#7) (h1 : fieldFunct3 w = 1#3) :
    decode w = ⟨0x13#7, fieldRd w, fieldRs1 w, 0#5, 1#3, fieldFunct7 w, immShamt w⟩ := by
  simp [decode, classOf, h, h1, DecodedInstruction.bare]

theorem decode_r {w : Word} (h : fieldOpcode w = 0x33#7) :
    decode w = ⟨0x33#7, fieldRd w, fieldRs1 w, fieldRs2 w, fieldFunct3 w, fieldFunct7 w, 0#32⟩ := by
  simp [decode, classOf, h, DecodedInstruction.bare]

theorem decode_s {w : Word} (h : fieldOpcode w = 0x23#7) :
    decode w = ⟨0x23#7, 0#5, fieldRs1 w, fieldRs2 w, fieldFunct3 w, 0#7, immS w⟩ := by
  simp [decode, classOf, h, DecodedInstruction.bare]

theorem decode_b {w : Word} (h : fieldOpcode w = 0x63#7) :
    decode w = ⟨0x63#7, 0#5, fieldRs1 w, fieldRs2 w, fieldFunct3 w, 0#7, immB w⟩ := by
  simp [decode, classOf, h, DecodedInstruction.bare]

/-- The class of an opcode, the other way round: which opcodes a class has (R63). -/
theorem classOf_cases (op : BitVec 7) :
    (classOf op = .hlt ∧ op = 0x00#7) ∨ (classOf op = .u ∧ op = 0x37#7) ∨
    (classOf op = .u ∧ op = 0x17#7) ∨ (classOf op = .i ∧ op = 0x13#7) ∨
    (classOf op = .r ∧ op = 0x33#7) ∨ (classOf op = .s ∧ op = 0x23#7) ∨
    (classOf op = .b ∧ op = 0x63#7) ∨
    (classOf op = .x ∧
      op ∉ [0x00#7, 0x37#7, 0x17#7, 0x13#7, 0x33#7, 0x23#7, 0x63#7]) := by
  unfold classOf
  split_ifs <;> simp_all

theorem decode_x {w : Word} (h : classOf (fieldOpcode w) = .x) :
    decode w = .bare (fieldOpcode w) := by
  simp [decode, h]

/-- The opcode is kept in every class (R81). -/
@[simp] theorem decode_opcode (w : Word) : (decode w).opcode = fieldOpcode w := by
  unfold decode
  split <;> first | rfl | (split <;> rfl)

/-! ### The fields of an encoded word (R70) -/

theorem encR_fields (op : BitVec 7) (rd : RegIdx) (f3 : BitVec 3) (rs1 rs2 : RegIdx)
    (f7 : BitVec 7) :
    fieldOpcode (encR op rd f3 rs1 rs2 f7) = op ∧ fieldRd (encR op rd f3 rs1 rs2 f7) = rd ∧
    fieldFunct3 (encR op rd f3 rs1 rs2 f7) = f3 ∧ fieldRs1 (encR op rd f3 rs1 rs2 f7) = rs1 ∧
    fieldRs2 (encR op rd f3 rs1 rs2 f7) = rs2 ∧ fieldFunct7 (encR op rd f3 rs1 rs2 f7) = f7 := by
  refine ⟨?_, ?_, ?_, ?_, ?_, ?_⟩ <;> apply BitVec.eq_of_getLsbD_eq <;> intro i hi <;>
    interval_cases i <;>
    simp [fieldOpcode, fieldRd, fieldFunct3, fieldRs1, fieldRs2, fieldFunct7, encR, place]

theorem encI_fields (op : BitVec 7) (rd : RegIdx) (f3 : BitVec 3) (rs1 : RegIdx) (imm : Word) :
    fieldOpcode (encI op rd f3 rs1 imm) = op ∧ fieldRd (encI op rd f3 rs1 imm) = rd ∧
    fieldFunct3 (encI op rd f3 rs1 imm) = f3 ∧ fieldRs1 (encI op rd f3 rs1 imm) = rs1 ∧
    (encI op rd f3 rs1 imm).extractLsb' 20 12 = imm.extractLsb' 0 12 := by
  refine ⟨?_, ?_, ?_, ?_, ?_⟩ <;> apply BitVec.eq_of_getLsbD_eq <;> intro i hi <;>
    interval_cases i <;>
    simp [fieldOpcode, fieldRd, fieldFunct3, fieldRs1, encI, place]

theorem encIsh_fields (op : BitVec 7) (rd rs1 : RegIdx) (imm : Word) (f7 : BitVec 7) :
    fieldOpcode (encIsh op rd rs1 imm f7) = op ∧ fieldRd (encIsh op rd rs1 imm f7) = rd ∧
    fieldFunct3 (encIsh op rd rs1 imm f7) = 1#3 ∧ fieldRs1 (encIsh op rd rs1 imm f7) = rs1 ∧
    (encIsh op rd rs1 imm f7).extractLsb' 20 5 = imm.extractLsb' 0 5 ∧
    fieldFunct7 (encIsh op rd rs1 imm f7) = f7 := by
  refine ⟨?_, ?_, ?_, ?_, ?_, ?_⟩ <;> apply BitVec.eq_of_getLsbD_eq <;> intro i hi <;>
    interval_cases i <;>
    simp [fieldOpcode, fieldRd, fieldFunct3, fieldRs1, fieldFunct7, encIsh, place]

theorem encS_fields (op : BitVec 7) (f3 : BitVec 3) (rs1 rs2 : RegIdx) (imm : Word) :
    fieldOpcode (encS op f3 rs1 rs2 imm) = op ∧ fieldFunct3 (encS op f3 rs1 rs2 imm) = f3 ∧
    fieldRs1 (encS op f3 rs1 rs2 imm) = rs1 ∧ fieldRs2 (encS op f3 rs1 rs2 imm) = rs2 ∧
    (encS op f3 rs1 rs2 imm).extractLsb' 25 7 = imm.extractLsb' 5 7 ∧
    (encS op f3 rs1 rs2 imm).extractLsb' 7 5 = imm.extractLsb' 0 5 := by
  refine ⟨?_, ?_, ?_, ?_, ?_, ?_⟩ <;> apply BitVec.eq_of_getLsbD_eq <;> intro i hi <;>
    interval_cases i <;>
    simp [fieldOpcode, fieldFunct3, fieldRs1, fieldRs2, encS, place]

theorem encB_fields (op : BitVec 7) (f3 : BitVec 3) (rs1 rs2 : RegIdx) (imm : Word) :
    fieldOpcode (encB op f3 rs1 rs2 imm) = op ∧ fieldFunct3 (encB op f3 rs1 rs2 imm) = f3 ∧
    fieldRs1 (encB op f3 rs1 rs2 imm) = rs1 ∧ fieldRs2 (encB op f3 rs1 rs2 imm) = rs2 ∧
    (encB op f3 rs1 rs2 imm).extractLsb' 31 1 = imm.extractLsb' 12 1 ∧
    (encB op f3 rs1 rs2 imm).extractLsb' 7 1 = imm.extractLsb' 11 1 ∧
    (encB op f3 rs1 rs2 imm).extractLsb' 25 6 = imm.extractLsb' 5 6 ∧
    (encB op f3 rs1 rs2 imm).extractLsb' 8 4 = imm.extractLsb' 1 4 := by
  refine ⟨?_, ?_, ?_, ?_, ?_, ?_, ?_, ?_⟩ <;> apply BitVec.eq_of_getLsbD_eq <;> intro i hi <;>
    interval_cases i <;>
    simp [fieldOpcode, fieldFunct3, fieldRs1, fieldRs2, encB, place]

theorem encU_fields (op : BitVec 7) (rd : RegIdx) (imm : Word) :
    fieldOpcode (encU op rd imm) = op ∧ fieldRd (encU op rd imm) = rd ∧
    immU (encU op rd imm) = imm &&& 0xFFFFF000#32 := by
  refine ⟨?_, ?_, ?_⟩ <;> apply BitVec.eq_of_getLsbD_eq <;> intro i hi <;>
    interval_cases i <;>
    simp [fieldOpcode, fieldRd, encU, place, immU]

/-! ### Immediates that a field can carry -/

/-- Sign extension keeps the signed reading (R92). -/
theorem sext_toInt {n : Nat} (hn : n ≤ 32) (v : BitVec n) : (sext v).toInt = v.toInt :=
  BitVec.toInt_signExtend_of_le hn

/-- A signed 12-bit number survives the cut to 12 bits and the extension back (R58, R60). -/
theorem sext12_extract {imm : Word} (h : fitsSigned12 imm = true) :
    sext (imm.extractLsb' 0 12) = imm := by
  simp only [fitsSigned12, Bool.and_eq_true, decide_eq_true_eq, BitVec.toInt_eq_toNat_cond] at h
  apply BitVec.eq_of_toInt_eq
  rw [sext_toInt (by decide), BitVec.toInt_eq_toNat_cond,
    BitVec.toInt_eq_toNat_cond, BitVec.extractLsb'_toNat]
  have := imm.isLt
  simp only [Nat.shiftRight_zero]
  split_ifs at * <;> omega

/-- An even signed 13-bit number survives likewise (R61). -/
theorem sext13_extract {imm : Word} (h : fitsBranch imm = true) :
    sext (imm.extractLsb' 0 13) = imm := by
  simp only [fitsBranch, Bool.and_eq_true, decide_eq_true_eq, BitVec.toInt_eq_toNat_cond] at h
  apply BitVec.eq_of_toInt_eq
  rw [sext_toInt (by decide), BitVec.toInt_eq_toNat_cond,
    BitVec.toInt_eq_toNat_cond, BitVec.extractLsb'_toNat]
  have := imm.isLt
  simp only [Nat.shiftRight_zero]
  split_ifs at * <;> omega

/-- Every extended 12-bit field is a signed 12-bit number. -/
theorem fitsSigned12_sext (v : BitVec 12) : fitsSigned12 (sext v) = true := by
  have h1 := v.isLt
  simp only [fitsSigned12, Bool.and_eq_true, decide_eq_true_eq]
  rw [sext_toInt (by decide), BitVec.toInt_eq_toNat_cond]
  split_ifs <;> omega

/-- Every extended 13-bit field with bit 0 clear is an even signed 13-bit number. -/
theorem fitsBranch_sext (v : BitVec 13) (h : v.getLsbD 0 = false) : fitsBranch (sext v) = true := by
  have h1 := v.isLt
  have h2 : v.toNat % 2 = 0 := by
    have := BitVec.getLsbD_eq_getElem (x := v) (i := 0) (by decide)
    rw [BitVec.getLsbD, Nat.testBit_zero] at h
    simpa using h
  simp only [fitsBranch, Bool.and_eq_true, decide_eq_true_eq]
  rw [sext_toInt (by decide), BitVec.toInt_eq_toNat_cond]
  split_ifs <;> omega

/-- A word with the low 12 bits cleared is an upper immediate. -/
theorem fitsUpper_iff (imm : Word) : fitsUpper imm = true ↔ imm &&& 0xFFFFF000#32 = imm := by
  have key : imm.toNat % 4096 = 0 ↔ imm.extractLsb' 0 12 = 0#12 := by
    rw [← BitVec.toNat_inj, BitVec.extractLsb'_toNat]; simp
  simp only [fitsUpper, decide_eq_true_eq, key]
  constructor
  · intro h
    apply BitVec.eq_of_getLsbD_eq
    intro i hi
    by_cases hlt : i < 12
    · have hb : imm.getLsbD i = false := by
        simpa [BitVec.getLsbD_extractLsb', hlt] using congrArg (·.getLsbD i) h
      simp [hb]
    · interval_cases i <;> simp_all
  · intro h
    apply BitVec.eq_of_getLsbD_eq
    intro i hi
    rw [← h]
    interval_cases i <;> simp

/-- A shift amount survives the cut to 5 bits (R59). -/
theorem shamt_extract {imm : Word} (h : fitsShamt imm = true) :
    (imm.extractLsb' 0 5).setWidth 32 = imm := by
  simp only [fitsShamt, decide_eq_true_eq] at h
  apply BitVec.eq_of_toNat_eq
  rw [BitVec.toNat_setWidth, BitVec.extractLsb'_toNat, Nat.shiftRight_zero]
  omega

/-! ### The masks of R64 as fields -/

theorem mask7_iff (w : Word) (op : BitVec 7) :
    w &&& 0x0000007F#32 = place op 0 ↔ fieldOpcode w = op := by
  constructor
  · intro h
    apply BitVec.eq_of_getLsbD_eq
    intro i hi
    have := congrArg (·.getLsbD i) h
    interval_cases i <;> simpa [fieldOpcode, place] using this
  · rintro rfl
    apply BitVec.eq_of_getLsbD_eq
    intro i hi
    interval_cases i <;> simp [fieldOpcode, place]

theorem mask10_iff (w : Word) (op : BitVec 7) (f3 : BitVec 3) :
    w &&& 0x0000707F#32 = place f3 12 ||| place op 0 ↔ fieldOpcode w = op ∧ fieldFunct3 w = f3 := by
  constructor
  · intro h
    constructor <;> apply BitVec.eq_of_getLsbD_eq <;> intro i hi
    · have := congrArg (·.getLsbD i) h
      interval_cases i <;> simpa [fieldOpcode, place] using this
    · have := congrArg (·.getLsbD (12 + i)) h
      interval_cases i <;> simpa [fieldFunct3, place] using this
  · rintro ⟨rfl, rfl⟩
    apply BitVec.eq_of_getLsbD_eq
    intro i hi
    interval_cases i <;> simp [fieldOpcode, fieldFunct3, place]

theorem mask17_iff (w : Word) (op : BitVec 7) (f3 : BitVec 3) (f7 : BitVec 7) :
    w &&& 0xFE00707F#32 = place f7 25 ||| place f3 12 ||| place op 0 ↔
      fieldOpcode w = op ∧ fieldFunct3 w = f3 ∧ fieldFunct7 w = f7 := by
  constructor
  · intro h
    refine ⟨?_, ?_, ?_⟩ <;> apply BitVec.eq_of_getLsbD_eq <;> intro i hi
    · have := congrArg (·.getLsbD i) h
      interval_cases i <;> simpa [fieldOpcode, place] using this
    · have := congrArg (·.getLsbD (12 + i)) h
      interval_cases i <;> simpa [fieldFunct3, place] using this
    · have := congrArg (·.getLsbD (25 + i)) h
      interval_cases i <;> simpa [fieldFunct7, place] using this
  · rintro ⟨rfl, rfl, rfl⟩
    apply BitVec.eq_of_getLsbD_eq
    intro i hi
    interval_cases i <;> simp [fieldOpcode, fieldFunct3, fieldFunct7, place]

/-! ### What a word stands for -/

/-- What a word decodes to, class by class, with the fields the function codes are looked up in. -/
theorem decodeWord_cases (w : Word) :
    (fieldOpcode w = 0#7 ∧ decodeWord w = .instr .hlt) ∨
    (fieldOpcode w = 0x37#7 ∧ ∃ rd imm, decodeWord w = .instr (.lui rd imm)) ∨
    (fieldOpcode w = 0x17#7 ∧ ∃ rd imm, decodeWord w = .instr (.auipc rd imm)) ∨
    (fieldOpcode w = 0x13#7 ∧ decodeWord w = dispatchI (decode w) ∧
      (decode w).funct3 = fieldFunct3 w ∧ (fieldFunct3 w = 1#3 → (decode w).funct7 = fieldFunct7 w)) ∨
    (fieldOpcode w = 0x33#7 ∧ decodeWord w = dispatchR (decode w) ∧
      (decode w).funct3 = fieldFunct3 w ∧ (decode w).funct7 = fieldFunct7 w) ∨
    (fieldOpcode w = 0x23#7 ∧ decodeWord w = dispatchS (decode w) ∧
      (decode w).funct3 = fieldFunct3 w) ∨
    (fieldOpcode w = 0x63#7 ∧ decodeWord w = dispatchB (decode w) ∧
      (decode w).funct3 = fieldFunct3 w ∧
      decode w = ⟨0x63#7, 0#5, fieldRs1 w, fieldRs2 w, fieldFunct3 w, 0#7, immB w⟩) ∨
    (fieldOpcode w ∉ [0x00#7, 0x37#7, 0x17#7, 0x13#7, 0x33#7, 0x23#7, 0x63#7] ∧
      decodeWord w = .unsupportedOpcode (fieldOpcode w)) := by
  rcases classOf_cases (fieldOpcode w) with ⟨h1, h2⟩ | ⟨h1, h2⟩ | ⟨h1, h2⟩ | ⟨h1, h2⟩ |
    ⟨h1, h2⟩ | ⟨h1, h2⟩ | ⟨h1, h2⟩ | ⟨h1, h2⟩
  · exact .inl ⟨h2, by rw [decodeWord, decode_hlt h2]; rfl⟩
  · exact .inr (.inl ⟨h2, _, _, by rw [decodeWord, decode_lui h2]; rfl⟩)
  · exact .inr (.inr (.inl ⟨h2, _, _, by rw [decodeWord, decode_auipc h2]; rfl⟩))
  · refine .inr (.inr (.inr (.inl ⟨h2, by simp [decodeWord, dispatch, h1], ?_, ?_⟩)))
    · by_cases h3 : fieldFunct3 w = 1#3
      · rw [decode_ishift h2 h3, h3]
      · rw [decode_i h2 h3]
    · intro h3; rw [decode_ishift h2 h3]
  · exact .inr (.inr (.inr (.inr (.inl ⟨h2, by simp [decodeWord, dispatch, h1],
      by rw [decode_r h2], by rw [decode_r h2]⟩))))
  · exact .inr (.inr (.inr (.inr (.inr (.inl ⟨h2, by simp [decodeWord, dispatch, h1],
      by rw [decode_s h2]⟩)))))
  · exact .inr (.inr (.inr (.inr (.inr (.inr (.inl ⟨h2, by simp [decodeWord, dispatch, h1],
      by rw [decode_b h2], decode_b h2⟩))))))
  · exact .inr (.inr (.inr (.inr (.inr (.inr (.inr ⟨h2, by simp [decodeWord, dispatch, decode_x h1,
      DecodedInstruction.bare, h1]⟩))))))

end Sys2Proof
end

