-- ==== Sys2Proof/Laws/State.lean ====
section
/-! SUPPORT. What each update of Machine/Ops.lean and Machine/Operands.lean leaves in each field, so
that no proof unfolds a record update. -/

namespace Sys2Proof.Machine.State

/-! ### setPc -/

@[simp] theorem setPc_cfg (s : State) (t : Word) : (s.setPc t).cfg = s.cfg := rfl
@[simp] theorem setPc_pc (s : State) (t : Word) : (s.setPc t).pc = t := rfl
@[simp] theorem setPc_regs (s : State) (t : Word) : (s.setPc t).regs = s.regs := rfl
@[simp] theorem setPc_statusFlags (s : State) (t : Word) : (s.setPc t).statusFlags = s.statusFlags := rfl
@[simp] theorem setPc_halted (s : State) (t : Word) : (s.setPc t).halted = s.halted := rfl
@[simp] theorem setPc_mem (s : State) (t : Word) : (s.setPc t).mem = s.mem := rfl
@[simp] theorem setPc_diag (s : State) (t : Word) : (s.setPc t).diag = s.diag := rfl
@[simp] theorem setPc_accesses (s : State) (t : Word) : (s.setPc t).accesses = s.accesses := rfl
@[simp] theorem setPc_isZeroReg (s : State) (t : Word) (r : RegIdx) : (s.setPc t).isZeroReg r = s.isZeroReg r := rfl
@[simp] theorem setPc_stored (s : State) (t : Word) (r : RegIdx) : (s.setPc t).stored r = s.stored r := rfl
@[simp] theorem setPc_x (s : State) (t : Word) (r : RegIdx) : (s.setPc t).x r = s.x r := rfl

/-! ### setStored -/

@[simp] theorem setStored_cfg (s : State) (i : RegIdx) (v : Word) : (s.setStored i v).cfg = s.cfg := rfl
@[simp] theorem setStored_pc (s : State) (i : RegIdx) (v : Word) : (s.setStored i v).pc = s.pc := rfl
@[simp] theorem setStored_regs (s : State) (i : RegIdx) (v : Word) : (s.setStored i v).regs = s.regs.set i.toNat v i.isLt := rfl
@[simp] theorem setStored_statusFlags (s : State) (i : RegIdx) (v : Word) : (s.setStored i v).statusFlags = s.statusFlags := rfl
@[simp] theorem setStored_halted (s : State) (i : RegIdx) (v : Word) : (s.setStored i v).halted = s.halted := rfl
@[simp] theorem setStored_mem (s : State) (i : RegIdx) (v : Word) : (s.setStored i v).mem = s.mem := rfl
@[simp] theorem setStored_diag (s : State) (i : RegIdx) (v : Word) : (s.setStored i v).diag = s.diag := rfl
@[simp] theorem setStored_accesses (s : State) (i : RegIdx) (v : Word) : (s.setStored i v).accesses = s.accesses := rfl
@[simp] theorem setStored_isZeroReg (s : State) (i : RegIdx) (v : Word) (r : RegIdx) : (s.setStored i v).isZeroReg r = s.isZeroReg r := rfl

/-! ### setMem -/

@[simp] theorem setMem_cfg (s : State) (m : Memory) : (s.setMem m).cfg = s.cfg := rfl
@[simp] theorem setMem_pc (s : State) (m : Memory) : (s.setMem m).pc = s.pc := rfl
@[simp] theorem setMem_regs (s : State) (m : Memory) : (s.setMem m).regs = s.regs := rfl
@[simp] theorem setMem_statusFlags (s : State) (m : Memory) : (s.setMem m).statusFlags = s.statusFlags := rfl
@[simp] theorem setMem_halted (s : State) (m : Memory) : (s.setMem m).halted = s.halted := rfl
@[simp] theorem setMem_mem (s : State) (m : Memory) : (s.setMem m).mem = m := rfl
@[simp] theorem setMem_diag (s : State) (m : Memory) : (s.setMem m).diag = s.diag := rfl
@[simp] theorem setMem_accesses (s : State) (m : Memory) : (s.setMem m).accesses = s.accesses := rfl
@[simp] theorem setMem_isZeroReg (s : State) (m : Memory) (r : RegIdx) : (s.setMem m).isZeroReg r = s.isZeroReg r := rfl
@[simp] theorem setMem_stored (s : State) (m : Memory) (r : RegIdx) : (s.setMem m).stored r = s.stored r := rfl
@[simp] theorem setMem_x (s : State) (m : Memory) (r : RegIdx) : (s.setMem m).x r = s.x r := rfl

/-! ### setHalted -/

@[simp] theorem setHalted_cfg (s : State) (h : Bool) : (s.setHalted h).cfg = s.cfg := rfl
@[simp] theorem setHalted_pc (s : State) (h : Bool) : (s.setHalted h).pc = s.pc := rfl
@[simp] theorem setHalted_regs (s : State) (h : Bool) : (s.setHalted h).regs = s.regs := rfl
@[simp] theorem setHalted_statusFlags (s : State) (h : Bool) : (s.setHalted h).statusFlags = s.statusFlags := rfl
@[simp] theorem setHalted_halted (s : State) (h : Bool) : (s.setHalted h).halted = h := rfl
@[simp] theorem setHalted_mem (s : State) (h : Bool) : (s.setHalted h).mem = s.mem := rfl
@[simp] theorem setHalted_diag (s : State) (h : Bool) : (s.setHalted h).diag = s.diag := rfl
@[simp] theorem setHalted_accesses (s : State) (h : Bool) : (s.setHalted h).accesses = s.accesses := rfl
@[simp] theorem setHalted_isZeroReg (s : State) (h : Bool) (r : RegIdx) : (s.setHalted h).isZeroReg r = s.isZeroReg r := rfl
@[simp] theorem setHalted_stored (s : State) (h : Bool) (r : RegIdx) : (s.setHalted h).stored r = s.stored r := rfl
@[simp] theorem setHalted_x (s : State) (h : Bool) (r : RegIdx) : (s.setHalted h).x r = s.x r := rfl

/-! ### setDiag -/

@[simp] theorem setDiag_cfg (s : State) (d : Diag) : (s.setDiag d).cfg = s.cfg := rfl
@[simp] theorem setDiag_pc (s : State) (d : Diag) : (s.setDiag d).pc = s.pc := rfl
@[simp] theorem setDiag_regs (s : State) (d : Diag) : (s.setDiag d).regs = s.regs := rfl
@[simp] theorem setDiag_statusFlags (s : State) (d : Diag) : (s.setDiag d).statusFlags = s.statusFlags := rfl
@[simp] theorem setDiag_halted (s : State) (d : Diag) : (s.setDiag d).halted = s.halted := rfl
@[simp] theorem setDiag_mem (s : State) (d : Diag) : (s.setDiag d).mem = s.mem := rfl
@[simp] theorem setDiag_diag (s : State) (d : Diag) : (s.setDiag d).diag = d := rfl
@[simp] theorem setDiag_accesses (s : State) (d : Diag) : (s.setDiag d).accesses = s.accesses := rfl
@[simp] theorem setDiag_isZeroReg (s : State) (d : Diag) (r : RegIdx) : (s.setDiag d).isZeroReg r = s.isZeroReg r := rfl
@[simp] theorem setDiag_stored (s : State) (d : Diag) (r : RegIdx) : (s.setDiag d).stored r = s.stored r := rfl
@[simp] theorem setDiag_x (s : State) (d : Diag) (r : RegIdx) : (s.setDiag d).x r = s.x r := rfl

/-! ### setAccesses -/

@[simp] theorem setAccesses_cfg (s : State) (as : List Access) : (s.setAccesses as).cfg = s.cfg := rfl
@[simp] theorem setAccesses_pc (s : State) (as : List Access) : (s.setAccesses as).pc = s.pc := rfl
@[simp] theorem setAccesses_regs (s : State) (as : List Access) : (s.setAccesses as).regs = s.regs := rfl
@[simp] theorem setAccesses_statusFlags (s : State) (as : List Access) : (s.setAccesses as).statusFlags = s.statusFlags := rfl
@[simp] theorem setAccesses_halted (s : State) (as : List Access) : (s.setAccesses as).halted = s.halted := rfl
@[simp] theorem setAccesses_mem (s : State) (as : List Access) : (s.setAccesses as).mem = s.mem := rfl
@[simp] theorem setAccesses_diag (s : State) (as : List Access) : (s.setAccesses as).diag = s.diag := rfl
@[simp] theorem setAccesses_accesses (s : State) (as : List Access) : (s.setAccesses as).accesses = as := rfl
@[simp] theorem setAccesses_isZeroReg (s : State) (as : List Access) (r : RegIdx) : (s.setAccesses as).isZeroReg r = s.isZeroReg r := rfl
@[simp] theorem setAccesses_stored (s : State) (as : List Access) (r : RegIdx) : (s.setAccesses as).stored r = s.stored r := rfl
@[simp] theorem setAccesses_x (s : State) (as : List Access) (r : RegIdx) : (s.setAccesses as).x r = s.x r := rfl

/-! ### The step's frame -/

@[simp] theorem logAccess_cfg (s : State) (a : Access) : (s.logAccess a).cfg = s.cfg := rfl
@[simp] theorem logAccess_pc (s : State) (a : Access) : (s.logAccess a).pc = s.pc := rfl
@[simp] theorem logAccess_regs (s : State) (a : Access) : (s.logAccess a).regs = s.regs := rfl
@[simp] theorem logAccess_statusFlags (s : State) (a : Access) : (s.logAccess a).statusFlags = s.statusFlags := rfl
@[simp] theorem logAccess_halted (s : State) (a : Access) : (s.logAccess a).halted = s.halted := rfl
@[simp] theorem logAccess_mem (s : State) (a : Access) : (s.logAccess a).mem = s.mem := rfl
@[simp] theorem logAccess_diag (s : State) (a : Access) : (s.logAccess a).diag = s.diag := rfl
@[simp] theorem logAccess_accesses (s : State) (a : Access) : (s.logAccess a).accesses = s.accesses ++ [a] := rfl
@[simp] theorem logAccess_isZeroReg (s : State) (a : Access) (r : RegIdx) : (s.logAccess a).isZeroReg r = s.isZeroReg r := rfl
@[simp] theorem logAccess_stored (s : State) (a : Access) (r : RegIdx) : (s.logAccess a).stored r = s.stored r := rfl
@[simp] theorem logAccess_x (s : State) (a : Access) (r : RegIdx) : (s.logAccess a).x r = s.x r := rfl

@[simp] theorem beginStep_cfg (s : State) : s.beginStep.cfg = s.cfg := rfl
@[simp] theorem beginStep_pc (s : State) : s.beginStep.pc = s.pc := rfl
@[simp] theorem beginStep_regs (s : State) : s.beginStep.regs = s.regs := rfl
@[simp] theorem beginStep_statusFlags (s : State) : s.beginStep.statusFlags = s.statusFlags := rfl
@[simp] theorem beginStep_halted (s : State) : s.beginStep.halted = s.halted := rfl
@[simp] theorem beginStep_mem (s : State) : s.beginStep.mem = s.mem := rfl
@[simp] theorem beginStep_diag (s : State) : s.beginStep.diag = .none := rfl
@[simp] theorem beginStep_accesses (s : State) : s.beginStep.accesses = [] := rfl
@[simp] theorem beginStep_isZeroReg (s : State) (r : RegIdx) : s.beginStep.isZeroReg r = s.isZeroReg r := rfl
@[simp] theorem beginStep_stored (s : State) (r : RegIdx) : s.beginStep.stored r = s.stored r := rfl
@[simp] theorem beginStep_x (s : State) (r : RegIdx) : s.beginStep.x r = s.x r := rfl

@[simp] theorem nextOf_cfg (s : State) : s.nextOf.cfg = s.cfg := rfl
@[simp] theorem nextOf_pc (s : State) : s.nextOf.pc = s.pc + 4#32 := rfl
@[simp] theorem nextOf_regs (s : State) : s.nextOf.regs = s.regs := rfl
@[simp] theorem nextOf_statusFlags (s : State) : s.nextOf.statusFlags = s.statusFlags := rfl
@[simp] theorem nextOf_halted (s : State) : s.nextOf.halted = s.halted := rfl
@[simp] theorem nextOf_mem (s : State) : s.nextOf.mem = s.mem := rfl
@[simp] theorem nextOf_diag (s : State) : s.nextOf.diag = s.diag := rfl
@[simp] theorem nextOf_accesses (s : State) : s.nextOf.accesses = s.accesses := rfl
@[simp] theorem nextOf_isZeroReg (s : State) (r : RegIdx) : s.nextOf.isZeroReg r = s.isZeroReg r := rfl
@[simp] theorem nextOf_stored (s : State) (r : RegIdx) : s.nextOf.stored r = s.stored r := rfl
@[simp] theorem nextOf_x (s : State) (r : RegIdx) : s.nextOf.x r = s.x r := rfl

@[simp] theorem halt_cfg (s : State) : s.halt.cfg = s.cfg := rfl
@[simp] theorem halt_pc (s : State) : s.halt.pc = s.pc := rfl
@[simp] theorem halt_regs (s : State) : s.halt.regs = s.regs := rfl
@[simp] theorem halt_statusFlags (s : State) : s.halt.statusFlags = s.statusFlags := rfl
@[simp] theorem halt_halted (s : State) : s.halt.halted = true := rfl
@[simp] theorem halt_mem (s : State) : s.halt.mem = s.mem := rfl
@[simp] theorem halt_diag (s : State) : s.halt.diag = s.diag := rfl
@[simp] theorem halt_accesses (s : State) : s.halt.accesses = s.accesses := rfl
@[simp] theorem halt_isZeroReg (s : State) (r : RegIdx) : s.halt.isZeroReg r = s.isZeroReg r := rfl
@[simp] theorem halt_stored (s : State) (r : RegIdx) : s.halt.stored r = s.stored r := rfl
@[simp] theorem halt_x (s : State) (r : RegIdx) : s.halt.x r = s.x r := rfl

@[simp] theorem skipWith_cfg (s : State) (d : Diag) : (s.skipWith d).cfg = s.cfg := rfl
@[simp] theorem skipWith_pc (s : State) (d : Diag) : (s.skipWith d).pc = s.pc + 4#32 := rfl
@[simp] theorem skipWith_regs (s : State) (d : Diag) : (s.skipWith d).regs = s.regs := rfl
@[simp] theorem skipWith_statusFlags (s : State) (d : Diag) : (s.skipWith d).statusFlags = s.statusFlags := rfl
@[simp] theorem skipWith_halted (s : State) (d : Diag) : (s.skipWith d).halted = s.halted := rfl
@[simp] theorem skipWith_mem (s : State) (d : Diag) : (s.skipWith d).mem = s.mem := rfl
@[simp] theorem skipWith_diag (s : State) (d : Diag) : (s.skipWith d).diag = d := rfl
@[simp] theorem skipWith_accesses (s : State) (d : Diag) : (s.skipWith d).accesses = s.accesses := rfl
@[simp] theorem skipWith_isZeroReg (s : State) (d : Diag) (r : RegIdx) : (s.skipWith d).isZeroReg r = s.isZeroReg r := rfl
@[simp] theorem skipWith_stored (s : State) (d : Diag) (r : RegIdx) : (s.skipWith d).stored r = s.stored r := rfl
@[simp] theorem skipWith_x (s : State) (d : Diag) (r : RegIdx) : (s.skipWith d).x r = s.x r := rfl

/-! ### The registers (R12) -/

/-- Stored register `i` after it was stored to. -/
@[simp] theorem setStored_stored_same (s : State) (i : RegIdx) (v : Word) :
    (s.setStored i v).stored i = v := by
  simp [stored]

/-- Another stored register. -/
theorem setStored_stored_other (s : State) {i r : RegIdx} (v : Word) (h : r ≠ i) :
    (s.setStored i v).stored r = s.stored r := by
  have h' : i.toNat ≠ r.toNat := fun e => h (BitVec.eq_of_toNat_eq e.symm)
  simp [stored, h']

/-- The hard-wired zero is register 0 under `X0_HARDWIRED`. -/
theorem isZeroReg_iff (s : State) (i : RegIdx) :
    s.isZeroReg i = true ↔ s.cfg.x0Hardwired = true ∧ i = 0#5 := by
  simp [isZeroReg]

/-- A write through the hard-wired zero is no write. -/
theorem setX_zero (s : State) {i : RegIdx} (v : Word) (h : s.isZeroReg i = true) :
    s.setX i v = s := by
  simp [setX, h]

/-- Any other write stores the value. -/
theorem setX_nonzero (s : State) {i : RegIdx} (v : Word) (h : s.isZeroReg i = false) :
    s.setX i v = s.setStored i v := by
  simp [setX, h]

/-- A register write has one of two outcomes: no write at all, or the value stored. -/
theorem setX_cases (s : State) (i : RegIdx) (v : Word) :
    (s.isZeroReg i = true ∧ s.setX i v = s) ∨
    (s.isZeroReg i = false ∧ s.setX i v = s.setStored i v) := by
  cases h : s.isZeroReg i
  · exact .inr ⟨rfl, s.setX_nonzero v h⟩
  · exact .inl ⟨rfl, s.setX_zero v h⟩

@[simp] theorem setX_cfg (s : State) (i : RegIdx) (v : Word) : (s.setX i v).cfg = s.cfg := by
  rcases s.setX_cases i v with ⟨-, h⟩ | ⟨-, h⟩ <;> simp [h]

@[simp] theorem setX_pc (s : State) (i : RegIdx) (v : Word) : (s.setX i v).pc = s.pc := by
  rcases s.setX_cases i v with ⟨-, h⟩ | ⟨-, h⟩ <;> simp [h]

@[simp] theorem setX_statusFlags (s : State) (i : RegIdx) (v : Word) : (s.setX i v).statusFlags = s.statusFlags := by
  rcases s.setX_cases i v with ⟨-, h⟩ | ⟨-, h⟩ <;> simp [h]

@[simp] theorem setX_halted (s : State) (i : RegIdx) (v : Word) : (s.setX i v).halted = s.halted := by
  rcases s.setX_cases i v with ⟨-, h⟩ | ⟨-, h⟩ <;> simp [h]

@[simp] theorem setX_mem (s : State) (i : RegIdx) (v : Word) : (s.setX i v).mem = s.mem := by
  rcases s.setX_cases i v with ⟨-, h⟩ | ⟨-, h⟩ <;> simp [h]

@[simp] theorem setX_diag (s : State) (i : RegIdx) (v : Word) : (s.setX i v).diag = s.diag := by
  rcases s.setX_cases i v with ⟨-, h⟩ | ⟨-, h⟩ <;> simp [h]

@[simp] theorem setX_accesses (s : State) (i : RegIdx) (v : Word) : (s.setX i v).accesses = s.accesses := by
  rcases s.setX_cases i v with ⟨-, h⟩ | ⟨-, h⟩ <;> simp [h]

@[simp] theorem setX_isZeroReg (s : State) (i r : RegIdx) (v : Word) :
    (s.setX i v).isZeroReg r = s.isZeroReg r := by
  simp [isZeroReg]

/-- Register `i` read back after a write. -/
theorem setX_x_same (s : State) (i : RegIdx) (v : Word) :
    (s.setX i v).x i = if s.isZeroReg i then 0#32 else v := by
  rcases s.setX_cases i v with ⟨hz, h⟩ | ⟨hz, h⟩
  · simp [h, x, hz]
  · simp [h, x, hz]

/-- A write leaves every other stored register, and all of them when it goes to the hard-wired zero. -/
theorem setX_stored_kept (s : State) {i r : RegIdx} (v : Word)
    (h : r ≠ i ∨ s.isZeroReg i = true) : (s.setX i v).stored r = s.stored r := by
  rcases s.setX_cases i v with ⟨-, hs⟩ | ⟨hz, hs⟩
  · rw [hs]
  · rw [hs, setStored_stored_other s v (h.resolve_right (by simp [hz]))]

end Sys2Proof.Machine.State
end

