-- ==== Sys2Proof/Laws/Memory.lean ====
section
/-! SUPPORT. The reference memory: read after write, writes elsewhere, the canonical form kept and its
use (equal bytes are equal memories), and what the memory port can do. -/

namespace Sys2Proof.Machine

/-! ### Bytes -/

@[simp] theorem Memory.read_nil (a : Nat) : Memory.read [] a = Memory.unlisted := rfl

theorem Memory.read_put_same (a : Nat) (b : Byte) (rest : Memory)
    (h : Memory.read rest a = Memory.unlisted) : (Memory.put a b rest).read a = b := by
  unfold Memory.put
  split
  · next hb => rw [h, hb]
  · simp [Memory.read]

theorem Memory.read_put_other {a a' : Nat} (b : Byte) (rest : Memory) (h : a' ≠ a) :
    (Memory.put a b rest).read a' = Memory.read rest a' := by
  unfold Memory.put
  split
  · rfl
  · simp [Memory.read, h.symm]

/-- An address below every entry is not listed. -/
theorem Memory.read_below {m : Memory} {a : Nat} (h : ∀ c ∈ m, a < c.1) :
    m.read a = Memory.unlisted := by
  induction m with
  | nil => rfl
  | cons c rest ih =>
    obtain ⟨k, v⟩ := c
    have hc : a < k := h (k, v) List.mem_cons_self
    simp only [Memory.read, if_neg (Nat.ne_of_gt hc)]
    exact ih fun d hd => h d (by simp [hd])

theorem Memory.wf_tail {c : Host.Cell} {rest : Memory} (h : Memory.wf (c :: rest)) :
    Memory.wf rest :=
  ⟨(List.pairwise_cons.1 h.1).2, fun d hd => h.2 d (by simp [hd])⟩

theorem Memory.wf_head {c : Host.Cell} {rest : Memory} (h : Memory.wf (c :: rest)) :
    ∀ d ∈ rest, c.1 < d.1 :=
  (List.pairwise_cons.1 h.1).1

theorem Memory.wf_nil : Memory.wf [] := by decide

/-- Read after write at the same address. -/
theorem Memory.read_write_same {m : Memory} (h : m.wf) (a : Nat) (b : Byte) :
    (m.write a b).read a = b := by
  induction m with
  | nil => exact Memory.read_put_same a b [] rfl
  | cons c rest ih =>
    obtain ⟨k, v⟩ := c
    have hr := Memory.wf_head h
    simp only [Memory.write]
    split
    · next hk => simp only [Memory.read, if_neg (Nat.ne_of_lt hk)]; exact ih (Memory.wf_tail h)
    · next hk =>
      split
      · next he => exact Memory.read_put_same a b rest (Memory.read_below fun d hd => he ▸ hr d hd)
      · next he =>
        have ha : a < k := by omega
        exact Memory.read_put_same a b _ (Memory.read_below fun d hd => by
          rcases List.mem_cons.1 hd with rfl | hd
          · exact ha
          · exact Nat.lt_trans ha (hr d hd))

/-- A write leaves every other address alone. -/
theorem Memory.read_write_other (m : Memory) {a a' : Nat} (b : Byte) (h : a' ≠ a) :
    (m.write a b).read a' = m.read a' := by
  induction m with
  | nil => exact Memory.read_put_other b [] h
  | cons c rest ih =>
    obtain ⟨k, v⟩ := c
    simp only [Memory.write]
    split
    · simp only [Memory.read, ih]
    · split
      · next he => rw [Memory.read_put_other b rest h, Memory.read, if_neg (he ▸ h.symm)]
      · exact Memory.read_put_other b _ h

/-- The entries of a written memory are old ones, or the byte written. -/
theorem Memory.mem_write {m : Memory} {a : Nat} {b : Byte} {c : Host.Cell}
    (h : c ∈ m.write a b) : c ∈ m ∨ (c = (a, b) ∧ b ≠ Memory.unlisted) := by
  induction m with
  | nil => simp only [Memory.write, Memory.put] at h; split at h <;> simp_all
  | cons d rest ih =>
    obtain ⟨k, v⟩ := d
    simp only [Memory.write, Memory.put] at h
    split at h
    · rcases List.mem_cons.1 h with rfl | h
      · simp
      · rcases ih h with h | h
        · simp [h]
        · exact .inr h
    · split at h <;> split at h <;> simp only [List.mem_cons] at h ⊢ <;> tauto

/-- Every byte write keeps the canonical form. -/
theorem Memory.wf_write {m : Memory} (h : m.wf) {a : Nat} (ha : a < 2 ^ 32) (b : Byte) :
    (m.write a b).wf := by
  refine ⟨?_, fun c hc => ?_⟩
  · induction m with
    | nil => simp only [Memory.write, Memory.put]; split <;> simp
    | cons d rest ih =>
      obtain ⟨k, v⟩ := d
      have hr := Memory.wf_head h
      have ht := (Memory.wf_tail h).1
      simp only [Memory.write, Memory.put]
      split
      · next hk =>
        refine List.pairwise_cons.2 ⟨fun c hc => ?_, ih (Memory.wf_tail h)⟩
        rcases Memory.mem_write hc with hc | ⟨rfl, -⟩
        · exact hr c hc
        · exact hk
      · next hk =>
        split <;> split
        · exact ht
        · next he _ => exact List.pairwise_cons.2 ⟨fun c hc => he ▸ hr c hc, ht⟩
        · exact h.1
        · next he _ =>
          refine List.pairwise_cons.2 ⟨fun c hc => ?_, h.1⟩
          rcases List.mem_cons.1 hc with rfl | hc
          · show a < k; omega
          · have := hr c hc; show a < c.1; simp only at this; omega
  · rcases Memory.mem_write hc with hc | ⟨rfl, hb⟩
    · exact h.2 c hc
    · exact ⟨ha, hb⟩

/-- In canonical form a listed entry is what its address reads as. -/
theorem Memory.read_of_mem {m : Memory} (h : m.wf) {c : Host.Cell} (hc : c ∈ m) :
    m.read c.1 = c.2 := by
  induction m with
  | nil => simp at hc
  | cons d rest ih =>
    rcases List.mem_cons.1 hc with rfl | hc'
    · simp [Memory.read]
    · have := Memory.wf_head h c hc'
      simp only [Memory.read, if_neg (Nat.ne_of_lt this)]
      exact ih (Memory.wf_tail h) hc'

/-- In canonical form the entries are exactly the addresses that do not read as unlisted ones do. -/
theorem Memory.mem_iff_read {m : Memory} (h : m.wf) (a : Nat) (b : Byte) :
    (a, b) ∈ m ↔ m.read a = b ∧ b ≠ Memory.unlisted := by
  refine ⟨fun hc => ⟨Memory.read_of_mem h hc, (h.2 _ hc).2⟩, fun hr => ?_⟩
  induction m with
  | nil => exact absurd hr.1.symm hr.2
  | cons d rest ih =>
    obtain ⟨k, v⟩ := d
    simp only [Memory.read] at hr
    split at hr
    · next hk => rw [← hk, ← hr.1]; exact List.mem_cons_self ..
    · exact List.mem_cons_of_mem _ (ih (Memory.wf_tail h) hr)

/-- Memories in canonical form with the same bytes are the same data. -/
theorem Memory.eq_of_reads {m n : Memory} (hm : m.wf) (hn : n.wf)
    (h : ∀ a, m.read a = n.read a) : m = n := by
  have mem : ∀ c, c ∈ m ↔ c ∈ n := fun ⟨a, b⟩ => by
    rw [Memory.mem_iff_read hm, Memory.mem_iff_read hn, h]
  have nodup : ∀ {l : Memory}, l.wf → l.Nodup := fun hl =>
    hl.1.imp fun {c d} hcd e => by subst e; exact Nat.lt_irrefl _ hcd
  exact List.Perm.eq_of_pairwise (le := fun c d => c.1 < d.1)
    (fun c d _ _ h1 h2 => absurd h1 (Nat.lt_asymm h2)) hm.1 hn.1
    ((List.perm_ext_iff_of_nodup (nodup hm) (nodup hn)).2 mem)

/-! ### Words -/

/-- `write32` keeps the canonical form. -/
theorem Memory.wf_write32 {m : Memory} (h : m.wf) (a v : Word) : (m.write32 a v).wf :=
  Memory.wf_write (Memory.wf_write (Memory.wf_write (Memory.wf_write h a.isLt _) (BitVec.isLt _) _)
    (BitVec.isLt _) _) (BitVec.isLt _) _

/-- `write32` leaves every byte but its four alone. -/
theorem Memory.read_write32_other (m : Memory) (a v : Word) {b : Nat} (h0 : b ≠ a.toNat)
    (h1 : b ≠ (a + 1#32).toNat) (h2 : b ≠ (a + 2#32).toNat) (h3 : b ≠ (a + 3#32).toNat) :
    (m.write32 a v).read b = m.read b := by
  simp only [Memory.write32, Memory.read_write_other _ _ h0, Memory.read_write_other _ _ h1,
    Memory.read_write_other _ _ h2, Memory.read_write_other _ _ h3]

/-- Two different small offsets give two different addresses. -/
theorem addr_ne (a : Word) {i j : Nat} (hi : i < 4) (hj : j < 4) (h : i ≠ j) :
    (a + BitVec.ofNat 32 i).toNat ≠ (a + BitVec.ofNat 32 j).toNat := by
  simp only [BitVec.toNat_add, BitVec.toNat_ofNat]; have := a.isLt; omega

/-- The bytes of a word, put together again, are the word. -/
theorem leWord_leByte (w : Word) : leWord (leByte w 0) (leByte w 1) (leByte w 2) (leByte w 3) = w := by
  apply BitVec.eq_of_getLsbD_eq
  intro i hi
  simp only [leWord, leByte, BitVec.getLsbD_append, BitVec.getLsbD_extractLsb']
  split
  · next h => simp [h]
  · split
    · next h h' => simp only [h', decide_true, Bool.true_and]; congr 1; omega
    · split
      · next h h' h'' => simp only [h'', decide_true, Bool.true_and]; congr 1; omega
      · have h3 : i - 8 - 8 - 8 < 8 := by omega
        simp only [h3, decide_true, Bool.true_and]; congr 1; omega

/-! ### The memory behind the port -/

/-- Over the reference memory a read is `Memory.read32`, where the policy permits the address. -/
theorem readPort_refMem {c : Config} (h : c.memory = .refMem) (m : Memory) (a w : Word) :
    readPort c m a = some w ↔ permits c a = true ∧ w = m.read32 a := by
  unfold readPort
  rw [h]
  by_cases hp : permits c a = true <;> simp [hp, eq_comm]

/-- Over the reference memory a read has no meaning exactly where the policy does not permit it. -/
theorem readPort_refMem_none {c : Config} (h : c.memory = .refMem) (m : Memory) (a : Word) :
    readPort c m a = none ↔ permits c a = false := by
  unfold readPort
  rw [h]
  by_cases hp : permits c a = true <;> simp [hp]

/-- Over the reference memory a write is `Memory.write32`, where the policy permits the address. -/
theorem writePort_refMem {c : Config} (h : c.memory = .refMem) (m n : Memory) (a v : Word) :
    writePort c m a v = some n ↔ permits c a = true ∧ n = m.write32 a v := by
  unfold writePort
  rw [h]
  by_cases hp : permits c a = true <;> simp [hp, eq_comm]

/-- Over the reference memory a write has no meaning exactly where the policy does not permit it. -/
theorem writePort_refMem_none {c : Config} (h : c.memory = .refMem) (m : Memory) (a v : Word) :
    writePort c m a v = none ↔ permits c a = false := by
  unfold writePort
  rw [h]
  by_cases hp : permits c a = true <;> simp [hp]

/-- Over another memory a write is that memory's own, where it keeps the contract. -/
theorem writePort_other {c : Config} {k : Nat} (h : c.memory = .other k) (m n : Memory) (a v : Word) :
    writePort c m a v = some n ↔
      Config.otherWrite32 k m a v = some n ∧ n.wf ∧ Config.otherRead32 k n a = some v := by
  unfold writePort
  rw [h]
  simp only [Option.filter_eq_some_iff, decide_eq_true_eq]

/-- A write through the port keeps the canonical form, over every memory. -/
theorem writePort_wf {c : Config} {m n : Memory} {a v : Word} (hm : m.wf)
    (h : writePort c m a v = some n) : n.wf := by
  cases hk : c.memory with
  | refMem =>
    obtain ⟨-, rfl⟩ := (writePort_refMem hk m n a v).1 h
    exact Memory.wf_write32 hm a v
  | other k => exact ((writePort_other hk m n a v).1 h).2.1

/-! ### The memory port -/

/-- A read through the port: the word and one more use on the list; nothing else changes. -/
theorem State.memRead_iff (s : State) (a w : Word) (t : State) :
    s.memRead a = some (w, t) ↔ s.wordAt a = some w ∧ t = s.logAccess (.read a) := by
  simp [State.memRead, eq_comm]

/-- A write through the port: what the memory then holds and one more use on the list. -/
theorem State.memWrite_iff (s : State) (a v : Word) (t : State) :
    s.memWrite a v = some t ↔
      ∃ m, writePort s.cfg s.mem a v = some m ∧ t = (s.setMem m).logAccess (.write a v) := by
  simp [State.memWrite, eq_comm]

/-- The fetch: the word at the PC, the step begun, and its read on the list. -/
theorem State.fetch_iff (s : State) (w : Word) (f : State) :
    s.fetch = some (w, f) ↔
      s.wordAt s.pc = some w ∧ f = s.beginStep.logAccess (.read s.pc) :=
  State.memRead_iff _ _ _ _

/-- The fetch has no meaning exactly where the memory defines no read at the PC. -/
theorem State.fetch_none (s : State) : s.fetch = none ↔ s.wordAt s.pc = none := by
  show Option.map _ (s.wordAt s.pc) = none ↔ _
  simp

/-- Under `refuse` the reference memory permits the multiples of 4. -/
theorem permits_refuse {c : Config} (h : c.misaligned = .refuse) (a : Word) :
    permits c a = aligned a := by simp [permits, h]

/-- Under `bytewise` the reference memory permits every address. -/
theorem permits_bytewise {c : Config} (h : c.misaligned = .bytewise) (a : Word) :
    permits c a = true := by simp [permits, h]

/-- `aligned` is what R37 writes. -/
theorem aligned_iff (a : Word) : aligned a = true ↔ a.toNat % 4 = 0 := by simp [aligned]

end Sys2Proof.Machine
end

