-- ==== Sys2Proof/Laws/Exec.lean ====
section
/-! SUPPORT. What the meanings can do, said once: an instruction writes one register, or branches, or
stores, or halts; a step is one of those, a skipped word, or the step of a halted machine. -/

namespace Sys2Proof.Machine

/-! ### The shared commits -/

/-- The commit of a register write is exactly the write and the default advance (R154, R155). -/
theorem writesOnly_commit (s : State) (rd : RegIdx) (v : Word) :
    WritesOnly rd v s (s.nextOf.setX rd v) := by
  refine ⟨?_, ?_, fun r hr => ?_, fun a => ?_, ⟨?_, ?_, ?_⟩, ?_, ?_⟩
  · rw [State.setX_x_same]
    simp [State.isZeroReg_iff]
  · simp [BitVec.toNat_add]
  · rw [State.setX_stored_kept]
    · simp
    · rcases hr with hr | hr
      · exact .inl hr
      · exact .inr (by simp [State.isZeroReg_iff, hr])
  all_goals simp

/-- A branch goes to `pc + imm` or to `pc + 4` (R134). -/
theorem branch_eq (s : State) (c : Bool) (imm : Word) :
    s.branch c imm = .next (s.setPc (if c then s.pc + imm else s.pc + 4#32)) := by
  cases c <;> rfl

/-- A state with only its PC set differs from the one before in nothing else. -/
theorem onlyPcChanged_setPc (s : State) (t : Word) : OnlyPcChanged s (s.setPc t) := by
  refine ⟨fun r => ?_, fun a => ?_, ⟨?_, ?_, ?_⟩, ?_, ?_⟩ <;> simp

/-- What a branch leaves alone: all but the PC. -/
theorem branch_next {s t : State} {c : Bool} {imm : Word} (h : s.branch c imm = .next t) :
    OnlyPcChanged s t ∧ t.pc = if c then s.pc + imm else s.pc + 4#32 := by
  rw [branch_eq] at h
  cases h
  exact ⟨onlyPcChanged_setPc s _, rfl⟩

/-- SW has a next state exactly where the memory defines the write, and then it is this one. -/
theorem execSw_next_iff (rs1 rs2 : RegIdx) (imm : Word) (s t : State) :
    execSw rs1 rs2 imm s = .next t ↔
      ∃ m, writePort s.cfg s.mem (s.effAddr rs1 imm) (s.x rs2) = some m ∧
        t = (s.nextOf.setMem m).logAccess (.write (s.effAddr rs1 imm) (s.x rs2)) := by
  cases h : writePort s.cfg s.mem (s.effAddr rs1 imm) (s.x rs2) <;>
    simp [execSw, State.memWrite, h, eq_comm]

/-- Where the memory defines no write, SW is refused. -/
theorem execSw_refused {rs1 rs2 : RegIdx} {imm : Word} {s : State}
    (h : writePort s.cfg s.mem (s.effAddr rs1 imm) (s.x rs2) = none) :
    execSw rs1 rs2 imm s = .refused (storeRefusal s.cfg (s.effAddr rs1 imm)) := by
  simp [execSw, State.memWrite, h]

/-! ### One instruction -/

/-- Everything an instruction can do when it has a next state. -/
theorem exec_cases {i : Instr} {s t : State} (h : exec i s = .next t) :
    (∃ rd v, destReg i = some rd ∧ t = s.nextOf.setX rd v) ∨
    (∃ p, destReg i = none ∧ t = s.setPc p) ∨
    (∃ rs1 rs2 imm m, i = .sw rs1 rs2 imm ∧
      writePort s.cfg s.mem (s.effAddr rs1 imm) (s.x rs2) = some m ∧
      t = (s.nextOf.setMem m).logAccess (.write (s.effAddr rs1 imm) (s.x rs2))) ∨
    (i = .hlt ∧ t = s.halt) := by
  cases i with
  | hlt => cases h; exact .inr (.inr (.inr ⟨rfl, rfl⟩))
  | sw rs1 rs2 imm =>
    obtain ⟨m, hm, rfl⟩ := (execSw_next_iff _ _ _ _ _).1 h
    exact .inr (.inr (.inl ⟨rs1, rs2, imm, m, rfl, hm, rfl⟩))
  | beq rs1 rs2 imm | bne rs1 rs2 imm | blt rs1 rs2 imm | bge rs1 rs2 imm =>
    simp only [exec, execBeq, execBne, execBlt, execBge, branch_eq] at h
    cases h
    exact .inr (.inl ⟨_, rfl, rfl⟩)
  | lui rd imm | auipc rd imm | addi rd rs1 imm | slli rd rs1 imm | add rd rs1 rs2
  | sub rd rs1 rs2 | sll rd rs1 rs2 | slt rd rs1 rs2 | xor rd rs1 rs2 | srl rd rs1 rs2
  | sra rd rs1 rs2 | or rd rs1 rs2 | and rd rs1 rs2 =>
    cases h
    exact .inl ⟨rd, _, rfl, rfl⟩

/-! ### One step -/

/-- A step of a running machine that fetches `w`. -/
theorem step_running {s : State} {w : Word} (hr : s.halted = false) (hw : s.wordAt s.pc = some w) :
    step s = execDecoded (decodeWord w) (s.beginStep.logAccess (.read s.pc)) := by
  have hf := (State.fetch_iff s w _).2 ⟨hw, rfl⟩
  simp only [step, hr, hf]
  rfl

/-- A step of a running machine whose fetch has no meaning. -/
theorem step_refused {s : State} (hr : s.halted = false) (hw : s.wordAt s.pc = none) :
    step s = .refused (fetchRefusal s.cfg s.pc) := by
  have hf := (State.fetch_none s).2 hw
  simp only [step, hr, hf]
  rfl

/-- A step of a halted machine has a next state, the machine with its outputs cleared (R153). -/
theorem step_halted {s : State} (h : s.halted = true) : step s = .next s.beginStep := by
  simp only [step, h, if_true]
  rfl

/-- Everything a step can do when it has a next state. -/
theorem step_cases {s t : State} (h : step s = .next t) :
    (s.halted = true ∧ t = s.beginStep) ∨
    (s.halted = false ∧ ∃ w, s.wordAt s.pc = some w ∧
      execDecoded (decodeWord w) (s.beginStep.logAccess (.read s.pc)) = .next t) := by
  cases hr : s.halted
  · refine .inr ⟨rfl, ?_⟩
    cases hw : s.wordAt s.pc with
    | none => rw [step_refused hr hw] at h; cases h
    | some w => exact ⟨w, rfl, step_running hr hw ▸ h⟩
  · refine .inl ⟨rfl, ?_⟩
    rw [step_halted hr] at h
    cases h
    rfl

/-- Everything the execution of a decoded word can do when it has a next state. -/
theorem execDecoded_cases {d : Decoded} {s t : State} (h : execDecoded d s = .next t) :
    (∃ i, d = .instr i ∧ exec i s = .next t) ∨
    (∃ op, d = .unsupportedOpcode op ∧ t = s.skipWith .unsupportedOpcode) ∨
    (∃ r, d = .unsupportedFunct r ∧ t = s.skipWith .unsupportedFunct) := by
  cases d with
  | instr i => exact .inl ⟨i, rfl, h⟩
  | unsupportedOpcode op => cases h; exact .inr (.inl ⟨op, rfl, rfl⟩)
  | unsupportedFunct r => cases h; exact .inr (.inr ⟨r, rfl, rfl⟩)

/-! ### Runs -/

/-- A run of `k + 1` steps whose first is `s` to `t` goes on from `t`. -/
theorem core_run_succ {s t : State} (k : Nat) (h : step s = .next t) :
    Host.Core.run Sys2Proof.core (k + 1) s = Host.Core.run Sys2Proof.core k t := by
  refine (Host.Core.run.eq_2 Sys2Proof.core s k).trans ?_
  replace h : Sys2Proof.core.step s = .next t := h
  generalize Sys2Proof.core.step s = o at h ⊢
  subst h
  rfl

end Sys2Proof.Machine
end

