-- ==== Sys2Proof/Laws/PerInstr.lean ====
section
/-! SUPPORT. One family of statements per instruction: the encoder's word of the instruction is a word
of the instruction's row of R64 (`w & mask = match`). -/

namespace Sys2Proof.Laws.TableRow

/-- The encoded word matches the row of the opcode table, whatever the operands. -/
def Statement (i : Instr) : Prop := encode i &&& i.row.mask = i.row.matchWord

theorem hlt : Statement .hlt := by
  unfold Statement; decide

theorem lui (rd : RegIdx) (imm : Word) : Statement (.lui rd imm) :=
  (mask7_iff _ 0x37#7).2 (encU_fields 0x37#7 rd imm).1

theorem auipc (rd : RegIdx) (imm : Word) : Statement (.auipc rd imm) :=
  (mask7_iff _ 0x17#7).2 (encU_fields 0x17#7 rd imm).1

theorem addi (rd rs1 : RegIdx) (imm : Word) : Statement (.addi rd rs1 imm) :=
  have h := encI_fields 0x13#7 rd 0#3 rs1 imm
  (mask10_iff _ 0x13#7 0#3).2 ⟨h.1, h.2.2.1⟩

theorem slli (rd rs1 : RegIdx) (imm : Word) : Statement (.slli rd rs1 imm) :=
  have h := encIsh_fields 0x13#7 rd rs1 imm 0x00#7
  (mask17_iff _ 0x13#7 1#3 0x00#7).2 ⟨h.1, h.2.2.1, h.2.2.2.2.2⟩

theorem add (rd rs1 rs2 : RegIdx) : Statement (.add rd rs1 rs2) :=
  have h := encR_fields 0x33#7 rd 0#3 rs1 rs2 0x00#7
  (mask17_iff _ 0x33#7 0#3 0x00#7).2 ⟨h.1, h.2.2.1, h.2.2.2.2.2⟩

theorem sub (rd rs1 rs2 : RegIdx) : Statement (.sub rd rs1 rs2) :=
  have h := encR_fields 0x33#7 rd 0#3 rs1 rs2 0x20#7
  (mask17_iff _ 0x33#7 0#3 0x20#7).2 ⟨h.1, h.2.2.1, h.2.2.2.2.2⟩

theorem sll (rd rs1 rs2 : RegIdx) : Statement (.sll rd rs1 rs2) :=
  have h := encR_fields 0x33#7 rd 1#3 rs1 rs2 0x00#7
  (mask17_iff _ 0x33#7 1#3 0x00#7).2 ⟨h.1, h.2.2.1, h.2.2.2.2.2⟩

theorem slt (rd rs1 rs2 : RegIdx) : Statement (.slt rd rs1 rs2) :=
  have h := encR_fields 0x33#7 rd 2#3 rs1 rs2 0x00#7
  (mask17_iff _ 0x33#7 2#3 0x00#7).2 ⟨h.1, h.2.2.1, h.2.2.2.2.2⟩

theorem xor (rd rs1 rs2 : RegIdx) : Statement (.xor rd rs1 rs2) :=
  have h := encR_fields 0x33#7 rd 4#3 rs1 rs2 0x00#7
  (mask17_iff _ 0x33#7 4#3 0x00#7).2 ⟨h.1, h.2.2.1, h.2.2.2.2.2⟩

theorem srl (rd rs1 rs2 : RegIdx) : Statement (.srl rd rs1 rs2) :=
  have h := encR_fields 0x33#7 rd 5#3 rs1 rs2 0x00#7
  (mask17_iff _ 0x33#7 5#3 0x00#7).2 ⟨h.1, h.2.2.1, h.2.2.2.2.2⟩

theorem sra (rd rs1 rs2 : RegIdx) : Statement (.sra rd rs1 rs2) :=
  have h := encR_fields 0x33#7 rd 5#3 rs1 rs2 0x20#7
  (mask17_iff _ 0x33#7 5#3 0x20#7).2 ⟨h.1, h.2.2.1, h.2.2.2.2.2⟩

theorem or (rd rs1 rs2 : RegIdx) : Statement (.or rd rs1 rs2) :=
  have h := encR_fields 0x33#7 rd 6#3 rs1 rs2 0x00#7
  (mask17_iff _ 0x33#7 6#3 0x00#7).2 ⟨h.1, h.2.2.1, h.2.2.2.2.2⟩

theorem and (rd rs1 rs2 : RegIdx) : Statement (.and rd rs1 rs2) :=
  have h := encR_fields 0x33#7 rd 7#3 rs1 rs2 0x00#7
  (mask17_iff _ 0x33#7 7#3 0x00#7).2 ⟨h.1, h.2.2.1, h.2.2.2.2.2⟩

theorem sw (rs1 rs2 : RegIdx) (imm : Word) : Statement (.sw rs1 rs2 imm) :=
  have h := encS_fields 0x23#7 2#3 rs1 rs2 imm
  (mask10_iff _ 0x23#7 2#3).2 ⟨h.1, h.2.1⟩

theorem beq (rs1 rs2 : RegIdx) (imm : Word) : Statement (.beq rs1 rs2 imm) :=
  have h := encB_fields 0x63#7 0#3 rs1 rs2 imm
  (mask10_iff _ 0x63#7 0#3).2 ⟨h.1, h.2.1⟩

theorem bne (rs1 rs2 : RegIdx) (imm : Word) : Statement (.bne rs1 rs2 imm) :=
  have h := encB_fields 0x63#7 1#3 rs1 rs2 imm
  (mask10_iff _ 0x63#7 1#3).2 ⟨h.1, h.2.1⟩

theorem blt (rs1 rs2 : RegIdx) (imm : Word) : Statement (.blt rs1 rs2 imm) :=
  have h := encB_fields 0x63#7 4#3 rs1 rs2 imm
  (mask10_iff _ 0x63#7 4#3).2 ⟨h.1, h.2.1⟩

theorem bge (rs1 rs2 : RegIdx) (imm : Word) : Statement (.bge rs1 rs2 imm) :=
  have h := encB_fields 0x63#7 5#3 rs1 rs2 imm
  (mask10_iff _ 0x63#7 5#3).2 ⟨h.1, h.2.1⟩

end Sys2Proof.Laws.TableRow
end

