-- ==== Sys2Proof/Tests/Slice0.lean ====
section
/-! SUPPORT. Tests: the words and single-step vectors of spec/95_test_vectors.md (the vector is named at
each), ill-formed terms, and for each obligation with hypotheses a state and operands that meet them. -/

namespace Sys2Proof.Tests

open Sys2Proof.Machine

/-! ### Helpers -/

/-- Running at `pc` with the word `w` there, the listed registers set, and zeros elsewhere. -/
def launch (c : Config) (pc w : Word) (rs : List (RegIdx × Word)) : State :=
  rs.foldl (fun s r => s.setStored r.1 r.2)
    ((State.afterReset c (Memory.write32 [] pc w)).setPc pc)

/-- `X0_HARDWIRED = false`. -/
def softZero : Config := { Config.default with x0Hardwired := false }

/-- `MISALIGNED_POLICY = bytewise`. -/
def bytewise : Config := { Config.default with misaligned := .bytewise }

/-- The usual launch of the vectors: defaults, `pc = 0x100`. -/
def at100 (w : Word) (rs : List (RegIdx × Word)) : State := launch Config.default 0x100#32 w rs

/-- A meaning or a step answers a next state, and it passes the check. -/
def nextSat (r : Result) (p : State → Bool) : Bool :=
  match r with
  | .next t => p t
  | .refused _ => false

theorem exists_next {r : Result} {p : State → Bool} (h : nextSat r p = true) :
    ∃ t, r = .next t ∧ p t = true := by
  cases r with
  | next t => exact ⟨t, rfl, h⟩
  | fault f => cases f
  | refused w => cases h

/-- The word after a step that should go on to `pc + 4` with no diagnostic. -/
def goesOn (s : State) (p : State → Bool) : Bool :=
  nextSat (step s) fun t => t.pc == s.pc + 4#32 && t.diag == .none && !t.halted && p t

/-- The step skips its word with this diagnostic: no register named changes, no store. -/
def skips (s : State) (d : Diag) : Bool :=
  nextSat (step s) fun t =>
    t.pc == s.pc + 4#32 && t.diag == d && !t.halted && t.regs == s.regs && t.mem == s.mem &&
      t.accesses == [.read s.pc]

/-- The step goes to `a`, changing no register and no memory. -/
def jumps (s : State) (a : Word) : Bool :=
  nextSat (step s) fun t =>
    t.pc == a && t.diag == .none && !t.halted && t.regs == s.regs && t.mem == s.mem

/-! ### Well-formedness: an ill-formed term for each check -/

theorem test_wf_upper_low_bits : Instr.wellFormed (.lui 1#5 0x00001800#32) = false := by decide
theorem test_wf_auipc_low_bits : Instr.wellFormed (.auipc 1#5 0x00000001#32) = false := by decide
theorem test_wf_addi_2048 : Instr.wellFormed (.addi 1#5 1#5 2048#32) = false := by decide
theorem test_wf_addi_below : Instr.wellFormed (.addi 1#5 1#5 0xFFFFF7FF#32) = false := by decide
theorem test_wf_shift_32 : Instr.wellFormed (.slli 1#5 1#5 32#32) = false := by decide
theorem test_wf_sw_2048 : Instr.wellFormed (.sw 1#5 1#5 2048#32) = false := by decide
theorem test_wf_beq_4096 : Instr.wellFormed (.beq 1#5 1#5 4096#32) = false := by decide
theorem test_wf_bne_below : Instr.wellFormed (.bne 1#5 1#5 0xFFFFEFFE#32) = false := by decide
theorem test_wf_blt_odd : Instr.wellFormed (.blt 1#5 1#5 5#32) = false := by decide
theorem test_wf_bge_4096 : Instr.wellFormed (.bge 1#5 1#5 4096#32) = false := by decide

/-! ### Decoding: words of section 2.1, sections 2.3 to 2.6 and Part 3 -/

theorem test_decode_hlt : decodeWord 0x00000080#32 = .instr .hlt := by decide
theorem test_decode_lui : decodeWord 0xFFFFF2B7#32 = .instr (.lui 5#5 0xFFFFF000#32) := by decide
theorem test_decode_auipc : decodeWord 0x00001117#32 = .instr (.auipc 2#5 0x00001000#32) := by decide
theorem test_decode_addi : decodeWord 0x80018193#32 = .instr (.addi 3#5 3#5 0xFFFFF800#32) := by decide
theorem test_decode_slli : decodeWord 0x01F09113#32 = .instr (.slli 2#5 1#5 31#32) := by decide
theorem test_decode_add : decodeWord 0x002081B3#32 = .instr (.add 3#5 1#5 2#5) := by decide
theorem test_decode_sub : decodeWord 0x40110233#32 = .instr (.sub 4#5 2#5 1#5) := by decide
theorem test_decode_sll : decodeWord 0x001112B3#32 = .instr (.sll 5#5 2#5 1#5) := by decide
theorem test_decode_slt : decodeWord 0x00122433#32 = .instr (.slt 8#5 4#5 1#5) := by decide
theorem test_decode_xor : decodeWord 0x0020C333#32 = .instr (.xor 6#5 1#5 2#5) := by decide
theorem test_decode_srl : decodeWord 0x0020D233#32 = .instr (.srl 4#5 1#5 2#5) := by decide
theorem test_decode_sra : decodeWord 0x405253B3#32 = .instr (.sra 7#5 4#5 5#5) := by decide
theorem test_decode_or : decodeWord 0x00526333#32 = .instr (.or 6#5 4#5 5#5) := by decide
theorem test_decode_and : decodeWord 0x001373B3#32 = .instr (.and 7#5 6#5 1#5) := by decide
theorem test_decode_sw : decodeWord 0x7E532FA3#32 = .instr (.sw 6#5 5#5 2047#32) := by decide
theorem test_decode_beq : decodeWord 0x80208063#32 = .instr (.beq 1#5 2#5 0xFFFFF000#32) := by decide
theorem test_decode_bne : decodeWord 0xFE009CE3#32 = .instr (.bne 1#5 0#5 0xFFFFFFF8#32) := by decide
theorem test_decode_blt : decodeWord 0x0020C463#32 = .instr (.blt 1#5 2#5 8#32) := by decide
theorem test_decode_bge : decodeWord 0x0020D663#32 = .instr (.bge 1#5 2#5 12#32) := by decide
theorem test_decode_ecall : decodeWord 0x00000073#32 = .unsupportedOpcode 0x73#7 := by decide
theorem test_decode_mul : decodeWord 0x022081B3#32 =
    .unsupportedFunct ⟨0x33#7, 3#5, 1#5, 2#5, 0#3, 0x01#7, 0#32⟩ := by decide

/-- The `4040D113` row of section 2.1: funct3 = 5 uses the 12-bit layout. -/
theorem test_decode_srai_record : decode 0x4040D113#32 =
    ⟨0x13#7, 2#5, 1#5, 0#5, 5#3, 0#7, 0x00000404#32⟩ := by decide

/-- The bytes of `0xFE209EE3`, the lowest address first (R36), and what is left over. -/
theorem test_decode_bytes : decodeBytes [0xE3#8, 0x9E#8, 0x20#8, 0xFE#8, 0x13#8] =
    .ok (.instr (.bne 1#5 2#5 0xFFFFFFFC#32), [0x13#8]) := by decide
theorem test_decode_bytes_short : decodeBytes [0xE3#8, 0x9E#8, 0x20#8] = .error (.truncated 3) := by
  decide
theorem test_decode_table_word : decodeTableWord 32 0xFE209EE3 =
    some (.bne 1#5 2#5 0xFFFFFFFC#32) := by decide
theorem test_decode_table_word_refuses : decodeTableWord 32 0x0000007F = none := by decide

/-- The words of Part 1, EX1 and EX3, from the spec's encoder (R70). -/
theorem test_encode : encode (.bne 1#5 2#5 0xFFFFFFFC#32) = 0xFE209EE3#32 ∧
    encode (.sw 6#5 5#5 0xFFFFF800#32) = 0x80532023#32 ∧ encode .hlt = 0#32 := by decide

/-! ### One step of each instruction -/

theorem test_hlt_VH3 : nextSat (step (at100 0xFFFFFF80#32 [(1#5, 5#32)])) (fun t =>
    t.halted && t.pc == 0x100#32 && t.x 1#5 == 5#32 && t.diag == .none) = true := by decide
/-- EX9, the second step. -/
theorem test_halted_VH5 : nextSat (step ((at100 0x00500093#32 []).setHalted true)) (fun t =>
    t.halted && t.pc == 0x100#32 && t.x 1#5 == 0#32 && t.accesses == []) = true := by decide
theorem test_lui_VU3 : goesOn (at100 0x000003B7#32 [(7#5, 0xDEADBEEF#32)])
    (fun t => t.x 7#5 == 0#32) = true := by decide
theorem test_lui_VU5 : goesOn (launch softZero 0x100#32 0x12345037#32 [])
    (fun t => t.x 0#5 == 0x12345000#32) = true := by decide
theorem test_auipc_VU6 : goesOn (at100 0x00001117#32 [])
    (fun t => t.x 2#5 == 0x00001100#32) = true := by decide
theorem test_auipc_VU9 : goesOn (launch Config.default 0xFFFFFFFC#32 0x00000197#32 [])
    (fun t => t.x 3#5 == 0xFFFFFFFC#32 && t.pc == 0#32) = true := by decide
theorem test_addi_VI4 : goesOn (at100 0x80018193#32 [(3#5, 0x80000000#32)])
    (fun t => t.x 3#5 == 0x7FFFF800#32) = true := by decide
theorem test_addi_VI9 : goesOn (at100 0x00708013#32 [(1#5, 1#32)])
    (fun t => t.x 0#5 == 0#32) = true := by decide
theorem test_slli_VI15 : goesOn (at100 0x00109113#32 [(1#5, 0xC0000001#32)])
    (fun t => t.x 2#5 == 0x80000002#32) = true := by decide
theorem test_slli_VI16_skipped :
    skips (at100 0x40409113#32 [(1#5, 0xF#32), (2#5, 0x55#32)]) .unsupportedFunct = true := by
  decide
theorem test_add_VRa : goesOn (at100 0x001080B3#32 [(1#5, 0x15#32)])
    (fun t => t.x 1#5 == 0x2A#32) = true := by decide
theorem test_sub_EX6 : goesOn (at100 0x402081B3#32 [(1#5, 5#32), (2#5, 7#32)])
    (fun t => t.x 3#5 == 0xFFFFFFFE#32) = true := by decide
theorem test_sll_row6 : goesOn (at100 0x002091B3#32 [(1#5, 0xF0F0F0F0#32), (2#5, 0x0FF00FF0#32)])
    (fun t => t.x 3#5 == 0xF0F00000#32) = true := by decide
theorem test_slt_row4 : goesOn (at100 0x0020A1B3#32 [(1#5, 0x7FFFFFFF#32), (2#5, 0x80000000#32)])
    (fun t => t.x 3#5 == 0#32) = true := by decide
theorem test_slt_row3 : goesOn (at100 0x0020A1B3#32 [(1#5, 0x80000000#32), (2#5, 0xFFFFFFFF#32)])
    (fun t => t.x 3#5 == 1#32) = true := by decide
theorem test_xor_row6 : goesOn (at100 0x0020C1B3#32 [(1#5, 0xF0F0F0F0#32), (2#5, 0x0FF00FF0#32)])
    (fun t => t.x 3#5 == 0xFF00FF00#32) = true := by decide
theorem test_srl_row5 : goesOn (at100 0x0020D1B3#32 [(1#5, 0x80000001#32), (2#5, 0x21#32)])
    (fun t => t.x 3#5 == 0x40000000#32) = true := by decide
theorem test_sra_row5 : goesOn (at100 0x4020D1B3#32 [(1#5, 0x80000001#32), (2#5, 0x21#32)])
    (fun t => t.x 3#5 == 0xC0000000#32) = true := by decide
theorem test_sra_row4 : goesOn (at100 0x4020D1B3#32 [(1#5, 0x7FFFFFFF#32), (2#5, 0x80000000#32)])
    (fun t => t.x 3#5 == 0x7FFFFFFF#32) = true := by decide
theorem test_or_row6 : goesOn (at100 0x0020E1B3#32 [(1#5, 0xF0F0F0F0#32), (2#5, 0x0FF00FF0#32)])
    (fun t => t.x 3#5 == 0xFFF0FFF0#32) = true := by decide
theorem test_and_row6 : goesOn (at100 0x0020F1B3#32 [(1#5, 0xF0F0F0F0#32), (2#5, 0x0FF00FF0#32)])
    (fun t => t.x 3#5 == 0x00F000F0#32) = true := by decide
theorem test_sw_VS5 : goesOn (at100 0x80532023#32 [(5#5, 0xCAFEF00D#32), (6#5, 0x400#32)])
    (fun t => t.mem.read32 0xFFFFFC00#32 == 0xCAFEF00D#32 && t.mem.read 0xFFFFFC00 == 0x0D#8) =
      true := by decide
/-- VS14 under both policies. -/
theorem test_sw_VS14 :
    step (at100 0x0020A023#32 [(1#5, 0x1002#32), (2#5, 0x2A#32)]) =
      .refused (.misalignedStore 0x1002#32) ∧
    goesOn (launch bytewise 0x100#32 0x0020A023#32 [(1#5, 0x1002#32), (2#5, 0x2A#32)])
      (fun t => t.mem.read32 0x1000#32 == 0x002A0000#32 && t.mem.read32 0x1004#32 == 0#32) = true :=
  ⟨by rfl, by decide⟩
theorem test_beq_VB2 : jumps (at100 0x7E208FE3#32 [(1#5, 1#32), (2#5, 1#32)]) 0x10FE#32 = true := by
  decide
theorem test_beq_VB9 : jumps (at100 0x00008463#32 [(1#5, 5#32)]) 0x104#32 = true := by decide
theorem test_bne_VB5 : jumps (at100 0xFE209EE3#32 [(1#5, 1#32), (2#5, 2#32)]) 0xFC#32 = true := by
  decide
theorem test_blt_row6 :
    jumps (at100 0x0020C463#32 [(1#5, 0x80000000#32), (2#5, 0x7FFFFFFF#32)]) 0x108#32 = true := by
  decide
theorem test_bge_row4 :
    jumps (at100 0x0020D463#32 [(1#5, 0xFFFFFFFF#32), (2#5, 1#32)]) 0x104#32 = true := by decide
theorem test_bge_row7 :
    jumps (at100 0x0020D463#32 [(1#5, 0x80000000#32), (2#5, 0x80000000#32)]) 0x108#32 = true := by
  decide
theorem test_jal_VX5_skipped : skips (at100 0x0000006F#32 [(1#5, 5#32)]) .unsupportedOpcode = true := by
  decide
theorem test_lw_VX7_skipped :
    skips (at100 0x00012083#32 [(1#5, 5#32), (2#5, 0x1000#32)]) .unsupportedOpcode = true := by
  decide

/-- A table word placed after reset is the first instruction that runs (VI1). -/
theorem test_withFetchWord : nextSat (step (State.reset.withFetchWord 32 0x00500093))
    (fun t => t.x 1#5 == 5#32 && t.pc == 4#32) = true := by decide

/-- VS14 at the ports: the core issues the write unchanged, the memory refuses it (R24, R125). -/
theorem test_ports_VS14 :
    (portsOut ⟨false, true, 0#5⟩ (at100 0x0020A023#32 [(1#5, 0x1002#32), (2#5, 0x2A#32)])).memWrite =
      some (0x1002#32, 0x2A#32) ∧
    (portsOut ⟨true, true, 0#5⟩ (at100 0x0020A023#32 [])).memWrite = none := by decide

/-- The codes of R167 at the ports: VX1 (1), VI16 (2), VI1 (0). -/
theorem test_ports_codes :
    (portsOut ⟨false, true, 0#5⟩ (at100 0x0000007F#32 [])).diag = 1#2 ∧
    (portsOut ⟨false, true, 0#5⟩ (at100 0x40409113#32 [])).diag = 2#2 ∧
    (portsOut ⟨false, true, 0#5⟩ (at100 0x00500093#32 [])).diag = 0#2 := by decide

/-- VZ2 through the ports: reset overrides `step_en`, and the memory stays. -/
theorem test_reset_edge : nextSat (clockEdge ⟨true, true, 0#5⟩
    ((at100 0x00500093#32 [(1#5, 5#32)]).setHalted true)) (fun t =>
      !t.halted && t.pc == 0#32 && t.x 1#5 == 0#32 && t.mem.read32 0x100#32 == 0x00500093#32) =
        true := by decide

/-! ### Witnesses: what meets the hypotheses of each obligation -/

theorem witness_DecodingAnEncodedInstructionGivesItBack :
    Instr.wellFormed (.lui 31#5 0xFFFFF000#32) = true ∧
    Instr.wellFormed (.addi 1#5 1#5 2047#32) = true ∧
    Instr.wellFormed (.addi 1#5 1#5 0xFFFFF800#32) = true ∧
    Instr.wellFormed (.slli 1#5 1#5 31#32) = true ∧
    Instr.wellFormed (.sw 0#5 31#5 0xFFFFF800#32) = true ∧
    Instr.wellFormed (.beq 1#5 2#5 4094#32) = true ∧
    Instr.wellFormed (.bge 1#5 2#5 0xFFFFF000#32) = true := by decide

theorem witness_ReencodingADecodedWordGivesItBack :
    fieldOpcode 0xFE209EE3#32 ∈ [0x37#7, 0x17#7, 0x13#7, 0x33#7, 0x23#7, 0x63#7] ∧
    fieldOpcode 0x0000007F#32 ∉ [0x37#7, 0x17#7, 0x13#7, 0x33#7, 0x23#7, 0x63#7] ∧
    fieldOpcode 0xFFFFFFFF#32 = fieldOpcode 0x0000007F#32 := by decide

theorem witness_DecodedInstructionsAreWellFormed :
    decodeWord 0x80532023#32 = .instr (.sw 6#5 5#5 0xFFFFF800#32) ∧
    decodeWord 0x7E208FE3#32 = .instr (.beq 1#5 2#5 4094#32) := by decide

theorem witness_OpcodeTableDecidesTheInstruction :
    ⟨"SRA", 0xFE00707F#32, 0x40005033#32⟩ ∈ opcodeTable ∧
    0x4020D1B3#32 &&& 0xFE00707F#32 = 0x40005033#32 ∧
    ∀ r ∈ opcodeTable, 0x022081B3#32 &&& r.mask ≠ r.matchWord := by decide

theorem witness_EveryWordFallsInOneOfFourSets :
    (at100 0x022081B3#32 []).halted = false ∧
    (at100 0x022081B3#32 []).wordAt 0x100#32 = some 0x022081B3#32 ∧
    unsupportedFunctWord 0x022081B3#32 ∧
    (at100 0x00000073#32 []).halted = false ∧
    (at100 0x00000073#32 []).wordAt 0x100#32 = some 0x00000073#32 ∧
    unsupportedOpcodeWord 0x00000073#32 := by decide

theorem witness_SignExtensionFillsWithTheSignBit :
    (fieldOpcode 0x4040D113#32 = 0x13#7 ∧ fieldFunct3 0x4040D113#32 ≠ 1#3) ∧
    (fieldOpcode 0x01F09113#32 = 0x13#7 ∧ fieldFunct3 0x01F09113#32 = 1#3) ∧
    fieldOpcode 0x80532023#32 = 0x23#7 ∧ fieldOpcode 0x80208063#32 = 0x63#7 ∧
    fieldOpcode 0xFFFFF2B7#32 = 0x37#7 ∧ fieldOpcode 0xFFFFF117#32 = 0x17#7 := by decide

theorem witness_ImmediatesAreAssembledBitByBit :
    (fieldOpcode 0x7FF00213#32 = 0x13#7 ∧ fieldFunct3 0x7FF00213#32 ≠ 1#3) ∧
    (fieldOpcode 0x00009113#32 = 0x13#7 ∧ fieldFunct3 0x00009113#32 = 1#3) ∧
    fieldOpcode 0x7E532FA3#32 = 0x23#7 ∧ fieldOpcode 0x7E208FE3#32 = 0x63#7 := by decide

theorem witness_DecodedRecordOfHltUpperShiftAndRegisterWords :
    BitVec.extractLsb' 0 7 0xFFFFFF80#32 = 0x00#7 ∧ BitVec.extractLsb' 0 7 0x000AB0B7#32 = 0x37#7 ∧
    BitVec.extractLsb' 0 7 0x00001117#32 = 0x17#7 ∧
    (BitVec.extractLsb' 0 7 0x40409113#32 = 0x13#7 ∧ BitVec.extractLsb' 12 3 0x40409113#32 = 1#3) ∧
    BitVec.extractLsb' 0 7 0xFFFFFFB3#32 = 0x33#7 := by decide

theorem witness_DecodedRecordZeroFillOfImmediateClasses :
    (BitVec.extractLsb' 0 7 0xFFFFF013#32 = 0x13#7 ∧ BitVec.extractLsb' 12 3 0xFFFFF013#32 ≠ 1#3) ∧
    BitVec.extractLsb' 0 7 0xFFFFFFA3#32 = 0x23#7 ∧ BitVec.extractLsb' 0 7 0xFFFFFFE3#32 = 0x63#7 ∧
    BitVec.extractLsb' 0 7 0xFFFFFFFF#32 ∉ [0x00#7, 0x37#7, 0x17#7, 0x13#7, 0x33#7, 0x23#7, 0x63#7] := by
  decide

/-- A state with two words in memory, both registers of a `SW x2, 0(x1)` set. -/
def storing : State := at100 0x0020A023#32 [(1#5, 0x1000#32), (2#5, 0x2A#32)]

theorem storing_inv : storing.Inv := by decide

theorem storing_steps : ∃ t, step storing = .next t ∧ (t.mem.read32 0x1000#32 == 0x2A#32) = true :=
  exists_next (by decide)

theorem witness_ResetDoesNotTouchTheMemory :
    PortsIn.rst ⟨true, true, 0#5⟩ = true ∧
    (∃ t, step (storing.setHalted true) = .next t ∧ t.halted = true) ∧
    (∃ t, step (at100 0x00500093#32 []) = .next t ∧ (t.x 1#5 == 5#32) = true) ∧
    (at100 0x00500093#32 []).wordAt 0x100#32 = some 0x00500093#32 ∧
    decodeWord 0x00500093#32 = .instr (.addi 1#5 0#5 5#32) :=
  ⟨by decide, exists_next (by decide), exists_next (by decide), by decide, by decide⟩

theorem witness_InvariantHoldsAfterReset : Memory.wf [(0x100, 0x13#8), (0xFFFFFFFF, 0x01#8)] := by
  decide

theorem witness_EveryStepKeepsTheInvariant :
    storing.Inv ∧ ∃ t, step storing = .next t ∧ (t.mem.read32 0x1000#32 == 0x2A#32) = true :=
  ⟨storing_inv, storing_steps⟩

theorem witness_RegisterZeroFollowsTheParameter :
    (storing.cfg.x0Hardwired = true ∧ (0#5 : RegIdx) = 0#5) ∧
    ¬(storing.cfg.x0Hardwired = true ∧ (31#5 : RegIdx) = 0#5) ∧
    ¬((launch softZero 0#32 0#32 []).cfg.x0Hardwired = true ∧ (0#5 : RegIdx) = 0#5) := by decide

theorem witness_RegistersReadAndWrittenAreThoseOfTheTable :
    (∃ t, execDecoded (.instr (.add 3#5 1#5 2#5)) storing = .next t ∧
      (t.x 3#5 == 0x102A#32 && destOf (.instr (.add 3#5 1#5 2#5)) != some 1#5) = true) ∧
    (∀ r ∈ sourcesOf (.instr (.sw 1#5 2#5 0#32)),
      State.x { storing with regs := storing.regs.set 7 9#32 } r = storing.x r) ∧
    storing.regs.set 7 9#32 ≠ storing.regs :=
  ⟨exists_next (by decide), by decide, by decide⟩

theorem witness_StatusFlagsNeverChangeAndNeverMatter :
    (∃ t, step storing = .next t ∧ (t.mem.read32 0x1000#32 == 0x2A#32) = true) ∧
    step (launch Config.default 0x102#32 0#32 []) = .refused (.misalignedFetch 0x102#32) :=
  ⟨storing_steps, by rfl⟩

theorem witness_OnlyHltHaltsAndOnlyResetResumes :
    (∃ t, step (at100 0x00A00000#32 []) = .next t ∧ t.halted = true) ∧
    (∃ t, step storing = .next t ∧ (!t.halted) = true) ∧
    ∃ t, clockEdge ⟨true, false, 0#5⟩ (storing.setHalted true) = .next t ∧ (!t.halted) = true :=
  ⟨exists_next (by decide), exists_next (by decide), exists_next (by decide)⟩

/-- The write at the top of the address space wraps under `bytewise` (R37). -/
theorem witness_WordReadBackIsTheWordWritten :
    storing.mem.wf ∧
    writePort bytewise storing.mem 0xFFFFFFFE#32 7#32 =
      some (storing.mem.write32 0xFFFFFFFE#32 7#32) ∧
    storing.memRead 0x100#32 =
      some (0x0020A023#32, storing.logAccess (.read 0x100#32)) := ⟨by decide, by decide, by rfl⟩

theorem witness_MemoryAccessesHaveNoSideEffect :
    storing.memRead 0x100#32 = some (0x0020A023#32, storing.logAccess (.read 0x100#32)) ∧
    (storing.logAccess (.read 0x100#32)).memRead 0x100#32 =
      some (0x0020A023#32, (storing.logAccess (.read 0x100#32)).logAccess (.read 0x100#32)) ∧
    storing.cfg.memory = .refMem ∧ storing.mem.wf ∧
    storing.memWrite 0xFFFFFFFC#32 7#32 =
      some ((storing.setMem (storing.mem.write32 0xFFFFFFFC#32 7#32)).logAccess
        (.write 0xFFFFFFFC#32 7#32)) := ⟨by rfl, by rfl, by rfl, by decide, by rfl⟩

theorem witness_WordsAreStoredLittleEndian :
    storing.mem.wf ∧ (3 : Nat) < 4 ∧
    (storing.mem.write32 0xFFFFFFFE#32 0x11223344#32).read 1 = 0x11#8 := by decide

theorem witness_AStoreIsSeenByEveryLaterFetch :
    storing.mem.wf ∧ storing.halted = false ∧ storing.wordAt storing.pc = some 0x0020A023#32 ∧
    decodeWord 0x0020A023#32 = .instr (.sw 1#5 2#5 0#32) ∧
    (writePort storing.cfg storing.mem (storing.effAddr 1#5 0#32) (storing.x 2#5)).isSome = true := by
  decide

theorem witness_LuiPlacesTheUpperImmediate : 0x000AB0B7#32 &&& 0x0000007F#32 = 0x00000037#32 := by
  decide
theorem witness_AuipcAddsTheImmediateToItsOwnAddress :
    0x00001117#32 &&& 0x0000007F#32 = 0x00000017#32 := by decide
theorem witness_AddiAddsTheSignedImmediate : 0xFFF08113#32 &&& 0x0000707F#32 = 0x00000013#32 := by
  decide
theorem witness_SlliShiftsLeftByTheImmediate :
    (0x40409113#32 &&& 0x0000707F#32 = 0x00001013#32 ∧
      BitVec.extractLsb' 25 7 0x40409113#32 ≠ 0#7) ∧
    0x01F09113#32 &&& 0xFE00707F#32 = 0x00001013#32 := by decide
theorem witness_AddIsTheSumModulo : 0x002081B3#32 &&& 0xFE00707F#32 = 0x00000033#32 := by decide
theorem witness_SubIsTheDifferenceModulo : 0x402081B3#32 &&& 0xFE00707F#32 = 0x40000033#32 := by
  decide
theorem witness_SllShiftsLeftByTheLowFiveBits :
    0x002091B3#32 &&& 0xFE00707F#32 = 0x00001033#32 := by decide
theorem witness_SltComparesSigned : 0x0020A1B3#32 &&& 0xFE00707F#32 = 0x00002033#32 := by decide
theorem witness_XorIsBitwise : 0x0020C1B3#32 &&& 0xFE00707F#32 = 0x00004033#32 := by decide
theorem witness_SrlFillsWithZeros : 0x0020D1B3#32 &&& 0xFE00707F#32 = 0x00005033#32 := by decide
theorem witness_SraFillsWithTheSign : 0x4020D1B3#32 &&& 0xFE00707F#32 = 0x40005033#32 := by decide
theorem witness_OrIsBitwise : 0x0020E1B3#32 &&& 0xFE00707F#32 = 0x00006033#32 := by decide
theorem witness_AndIsBitwise : 0x0020F1B3#32 &&& 0xFE00707F#32 = 0x00007033#32 := by decide

theorem witness_SwStoresTheWordAndNothingElse :
    0xFE20AE23#32 &&& 0x0000707F#32 = 0x00002023#32 ∧
    writePort storing.cfg storing.mem (storing.effAddr 1#5 0xFFFFFFFC#32) (storing.x 2#5) =
      some (storing.mem.write32 0xFFC#32 0x2A#32) ∧
    writePort storing.cfg storing.mem (storing.effAddr 1#5 2047#32) (storing.x 2#5) = none ∧
    storing.cfg.memory = .refMem ∧ storing.mem.wf ∧ storing.cfg.misaligned = .refuse ∧
    (storing.effAddr 1#5 0xFFFFFFFC#32).toNat % 4 = 0 ∧
    (storing.effAddr 1#5 2047#32).toNat % 4 ≠ 0 ∧
    ((launch bytewise 0#32 0#32 []).mem.wf ∧
      (launch bytewise 0#32 0#32 []).cfg.memory = .refMem ∧
      (launch bytewise 0#32 0#32 []).cfg.misaligned ≠ .refuse) := by decide

theorem witness_BeqBranchesWhenEqual : 0x7E208FE3#32 &&& 0x0000707F#32 = 0x00000063#32 := by decide
theorem witness_BneBranchesWhenDifferent : 0xFE209EE3#32 &&& 0x0000707F#32 = 0x00001063#32 := by
  decide
theorem witness_BltBranchesWhenLessSigned : 0x0020C463#32 &&& 0x0000707F#32 = 0x00004063#32 := by
  decide
theorem witness_BgeBranchesExactlyWhenBltDoesNot :
    0x0020D463#32 &&& 0x0000707F#32 = 0x00005063#32 ∧
    (∃ t, exec (.bge 1#5 2#5 8#32) storing = .next t ∧ (t.pc == 0x108#32) = true) ∧
    ∃ u, exec (.blt 1#5 2#5 8#32) storing = .next u ∧ (u.pc == 0x104#32) = true :=
  ⟨by decide, exists_next (by decide), exists_next (by decide)⟩

theorem witness_HltHaltsAndChangesNothingElse :
    (at100 0x00A00000#32 []).halted = false ∧
    (at100 0x00A00000#32 []).wordAt 0x100#32 = some 0x00A00000#32 ∧
    0x00A00000#32 &&& 0x0000007F#32 = 0x00000000#32 := by decide

theorem witness_AStepRunsTheDecodedInstruction :
    (storing.setHalted true).halted = true ∧
    (storing.setPc 0x102#32).halted = false ∧ (storing.setPc 0x102#32).wordAt 0x102#32 = none ∧
    storing.cfg.memory = .refMem ∧ permits storing.cfg storing.pc = true ∧
    storing.halted = false ∧ storing.wordAt storing.pc = some 0x0020A023#32 ∧
    decodeWord 0x0020A023#32 = .instr (.sw 1#5 2#5 0#32) ∧
    (at100 0x0000007F#32 []).wordAt 0x100#32 = some 0x0000007F#32 ∧
    decodeWord 0x0000007F#32 = .unsupportedOpcode 0x7F#7 ∧
    (at100 0x0020B023#32 []).wordAt 0x100#32 = some 0x0020B023#32 ∧
    decodeWord 0x0020B023#32 = .unsupportedFunct ⟨0x23#7, 0#5, 1#5, 2#5, 3#3, 0#7, 0#32⟩ ∧
    (at100 0xFFFFFF80#32 []).wordAt 0x100#32 = some 0xFFFFFF80#32 ∧
    fieldOpcode 0xFFFFFF80#32 = 0#7 := by decide

/-- A halt, a taken branch, one not taken, and a word with no branch. -/
theorem witness_DefaultAdvanceUnlessABranchIsTaken :
    (∃ t, step (at100 0#32 []) = .next t ∧ (t.pc == 0x100#32) = true) ∧
    (∃ t, step (at100 0x00208463#32 []) = .next t ∧ (t.pc == 0x108#32) = true) ∧
    (∃ t, step (at100 0x00209463#32 []) = .next t ∧ (t.pc == 0x104#32) = true) ∧
    ∃ t, step (at100 0x0020E463#32 []) = .next t ∧ (t.pc == 0x104#32) = true :=
  ⟨exists_next (by decide), exists_next (by decide), exists_next (by decide),
    exists_next (by decide)⟩

theorem witness_UnsupportedOpcodeIsANoOpWithADiagnostic :
    (at100 0xFFFFFFFF#32 []).halted = false ∧
    (at100 0xFFFFFFFF#32 []).wordAt 0x100#32 = some 0xFFFFFFFF#32 ∧
    unsupportedOpcodeWord 0xFFFFFFFF#32 := by decide

/-- One word of each of the three sets: MUL, SB, BLTU. -/
theorem witness_UnsupportedFunctionCodeIsANoOpWithADiagnostic :
    (at100 0x022081B3#32 []).halted = false ∧
    (at100 0x022081B3#32 []).wordAt 0x100#32 = some 0x022081B3#32 ∧
    (BitVec.extractLsb' 0 7 0x022081B3#32 = 0x33#7 ∧
      (BitVec.extractLsb' 12 3 0x022081B3#32, BitVec.extractLsb' 25 7 0x022081B3#32) =
        (0#3, 0x01#7)) ∧
    (at100 0x00208023#32 []).wordAt 0x100#32 = some 0x00208023#32 ∧
    (BitVec.extractLsb' 0 7 0x00208023#32 = 0x23#7 ∧ BitVec.extractLsb' 12 3 0x00208023#32 = 0#3) ∧
    (at100 0x0020E463#32 []).wordAt 0x100#32 = some 0x0020E463#32 ∧
    (BitVec.extractLsb' 0 7 0x0020E463#32 = 0x63#7 ∧ BitVec.extractLsb' 12 3 0x0020E463#32 = 6#3) := by
  decide

/-- SRAI (`funct3 = 5`) and the shift word of VI16 (`funct3 = 1`, `funct7 = 0x20`). -/
theorem witness_UnsupportedImmediateFunctionCodeIsANoOpWithADiagnostic :
    (at100 0x4040D113#32 []).halted = false ∧
    (at100 0x4040D113#32 []).wordAt 0x100#32 = some 0x4040D113#32 ∧
    (BitVec.extractLsb' 0 7 0x4040D113#32 = 0x13#7 ∧ BitVec.extractLsb' 12 3 0x4040D113#32 = 5#3) ∧
    (at100 0x40409113#32 []).halted = false ∧
    (at100 0x40409113#32 []).wordAt 0x100#32 = some 0x40409113#32 ∧
    BitVec.extractLsb' 0 7 0x40409113#32 = 0x13#7 ∧
    BitVec.extractLsb' 12 3 0x40409113#32 = 1#3 ∧
    BitVec.extractLsb' 25 7 0x40409113#32 ≠ 0x00#7 := by decide

theorem witness_DiagnosticsArePreciselyOfUnsupportedWords :
    (∃ t, step (at100 0x0000007F#32 []) = .next t ∧ (t.diag == .unsupportedOpcode) = true) ∧
    (∃ t, step (at100 0x0020B023#32 []) = .next t ∧ (t.diag == .unsupportedFunct) = true) ∧
    ∃ t, step storing = .next t ∧ (t.diag == .none) = true :=
  ⟨exists_next (by decide), exists_next (by decide), exists_next (by decide)⟩

theorem witness_OneFetchAndAtMostOneStorePerStep :
    (∃ t, step (storing.setHalted true) = .next t ∧ (t.accesses == []) = true) ∧
    (∃ t, step storing = .next t ∧
      (t.accesses == [.read 0x100#32, .write 0x1000#32 0x2A#32]) = true) ∧
    ∃ t, step (at100 0x00500093#32 []) = .next t ∧ (t.accesses == [.read 0x100#32]) = true :=
  ⟨exists_next (by decide), exists_next (by decide), exists_next (by decide)⟩

theorem witness_OnlyTheMemoryLeavesAStepWithoutSuccessor :
    storing.cfg.memory = .refMem ∧ storing.cfg.misaligned = .refuse ∧
    ((storing.setPc 0x102#32).halted = false ∧ (storing.setPc 0x102#32).pc.toNat % 4 ≠ 0) ∧
    (storing.setStored 1#5 0x1002#32).halted = false ∧
    (storing.setStored 1#5 0x1002#32).pc.toNat % 4 = 0 ∧
    decodeWord ((storing.setStored 1#5 0x1002#32).mem.read32 0x100#32) =
      .instr (.sw 1#5 2#5 0#32) ∧
    ((storing.setStored 1#5 0x1002#32).effAddr 1#5 0#32).toNat % 4 ≠ 0 := by decide

theorem witness_AHaltedMachineStaysAsItIs : (storing.setHalted true).halted = true := by decide

/-- P4's first word: a step, then the halt. -/
theorem witness_ARunEndsAtItsFirstHaltedStateForGood :
    (∃ f ds, runToHalt 3 (at100 0x00900013#32 []) = .ended f ds ∧ ds = [.none, .none]) ∧
    (∃ f, Host.Core.run Sys2Proof.core 2 (at100 0x00900013#32 []) = .next f ∧ f.halted = true ∧
      f.pc = 0x104#32) ∧
    (at100 0x00900013#32 []).halted = false ∧
    (∃ u, Host.Core.run Sys2Proof.core 1 (at100 0x00900013#32 []) = .next u ∧ u.halted = false) ∧
    ∃ u ds, runToHalt 1 (at100 0x00900013#32 []) = .outOfFuel u ds ∧ ds = [.none] :=
  ⟨⟨_, _, by rfl, rfl⟩, ⟨_, by rfl, by decide, by decide⟩, by decide, ⟨_, by rfl, by decide⟩,
    ⟨_, _, by rfl, rfl⟩⟩

theorem witness_SourcesAreReadBeforeTheDestinationIsWritten :
    ¬(storing.cfg.x0Hardwired = true ∧ (1#5 : RegIdx) = 0#5) ∧ storing.mem.wf ∧
    (writePort storing.cfg storing.mem (storing.effAddr 1#5 4#32) (storing.x 2#5)).isSome = true ∧
    (writePort storing.cfg storing.mem (storing.x 1#5) (storing.x 1#5)).isSome = true := by decide

theorem witness_PortsShowTheStepOfTheCycle :
    (storing.cfg.x0Hardwired = true ∧ PortsIn.dbgRaddr ⟨false, true, 0#5⟩ = 0#5) ∧
    (portsOut ⟨false, true, 1#5⟩ storing).memWrite = some (0x1000#32, 0x2A#32) ∧
    (∃ t, step (at100 0x0000007F#32 []) = .next t ∧ (t.diag == .unsupportedOpcode) = true) ∧
    step (storing.setStored 1#5 0x1002#32) = .refused (.misalignedStore 0x1002#32) ∧
    PortsIn.stepEn ⟨false, false, 0#5⟩ = false ∧ PortsIn.rst ⟨true, true, 0#5⟩ = true ∧
    (storing.setPc 0x102#32).halted = false ∧ (storing.setPc 0x102#32).wordAt 0x102#32 = none :=
  ⟨by decide, by decide, exists_next (by decide), by rfl, by decide, by decide, by decide, by decide⟩

theorem witness_AClockEdgeResetsStepsOrHolds :
    storing.Inv ∧
    (∃ t, clockEdge ⟨true, true, 0#5⟩ storing = .next t ∧ (t.pc == 0#32) = true) ∧
    (∃ t, clockEdge ⟨false, true, 0#5⟩ storing = .next t ∧ (t.pc == 0x104#32) = true) ∧
    ∃ t, clockEdge ⟨false, false, 0#5⟩ storing = .next t ∧ (t.pc == 0x100#32) = true :=
  ⟨storing_inv, exists_next (by decide), exists_next (by decide), exists_next (by decide)⟩

theorem witness_APlacedWordIsTheNextInstruction :
    storing.mem.wf ∧ 0xFFFFFFFF < 2 ^ 32 ∧ permits storing.cfg storing.pc = true ∧
    (launch { Config.default with memory := .other 0 } 0#32 0#32 []).cfg.memory ≠ .refMem ∧
    (storing.setPc 0x102#32).cfg.memory = .refMem ∧
    permits Config.default (storing.setPc 0x102#32).pc = false ∧
    (writePort (storing.setPc 0x102#32).cfg storing.mem (storing.setPc 0x102#32).fetchPc
      0xFFFFFFFF#32).isSome = true := by decide

end Sys2Proof.Tests
end

section
/-! SUPPORT. What a reset leaves in each field of the state (R23, R185), and O11. -/

namespace Sys2Proof.Machine.State

/-! ### afterReset -/

@[simp] theorem afterReset_cfg (c : Config) (m : Memory) : (afterReset c m).cfg = c := rfl
@[simp] theorem afterReset_pc (c : Config) (m : Memory) : (afterReset c m).pc = c.resetPc := rfl
@[simp] theorem afterReset_regs (c : Config) (m : Memory) : (afterReset c m).regs = resetRegs c := rfl
@[simp] theorem afterReset_statusFlags (c : Config) (m : Memory) :
    (afterReset c m).statusFlags = List.replicate c.nflags false := rfl
@[simp] theorem afterReset_halted (c : Config) (m : Memory) : (afterReset c m).halted = false := rfl
@[simp] theorem afterReset_mem (c : Config) (m : Memory) : (afterReset c m).mem = m := rfl

/-- Each stored register after reset: `INIT_REGS`, but 0 for the hard-wired register 0 (R23, D1). -/
theorem afterReset_stored (c : Config) (m : Memory) (r : RegIdx) :
    (afterReset c m).stored r =
      if c.x0Hardwired = true ∧ r = 0#5 then 0#32 else c.initRegs[r.toNat]'r.isLt := by
  cases hx : c.x0Hardwired with
  | false => simp [stored, resetRegs, hx]
  | true =>
    by_cases hr : r = 0#5
    · subst hr
      simp [stored, resetRegs, hx]
    · have hne : 0 ≠ r.toNat := fun e => hr (BitVec.eq_of_toNat_eq e.symm)
      simp [stored, resetRegs, hx, hr, hne]

/-- At the defaults every stored register is 0: `INIT_REGS` is all zero (D8), and so is the
hard-wired register. -/
theorem reset_stored (r : RegIdx) : reset.stored r = 0#32 := by
  rw [reset, afterReset_stored]
  split
  · rfl
  · simp [Config.default]

end Sys2Proof.Machine.State

namespace Sys2Proof.Proofs

open Sys2Proof.Machine

/-- Settles O11: the registers by `afterReset_stored` and, at the defaults, `reset_stored`; every other
field is read off `afterReset`. -/
theorem resetLeavesTheStatedValues : Obligations.ResetLeavesTheStatedValues :=
  ⟨fun c m => ⟨rfl, rfl, State.afterReset_stored c m, rfl, rfl⟩,
    rfl, State.reset_stored, rfl, rfl, rfl, rfl, rfl⟩

end Sys2Proof.Proofs
end

section
/-! SUPPORT. The table of R13: which register an execution writes, that its outcome depends on no
register but those it reads, and O16. -/

namespace Sys2Proof.Machine

/-! ### The register written -/

/-- An instruction with a next state keeps every stored register that is not its destination. -/
theorem exec_stored_kept {i : Instr} {s t : State} {r : RegIdx} (h : exec i s = .next t)
    (hr : destReg i ≠ some r) : t.stored r = s.stored r := by
  rcases exec_cases h with ⟨rd, v, hd, rfl⟩ | ⟨p, -, rfl⟩ | ⟨rs1, rs2, imm, m, -, -, rfl⟩ | ⟨-, rfl⟩
  · have hne : r ≠ rd := fun e => hr (e ▸ hd)
    simp [State.setX_stored_kept _ v (.inl hne)]
  all_goals simp

/-- The same of a decoded word; an unsupported one has no destination. -/
theorem execDecoded_stored_kept {d : Decoded} {s t : State} {r : RegIdx}
    (h : execDecoded d s = .next t) (hr : destOf d ≠ some r) : t.stored r = s.stored r := by
  rcases execDecoded_cases h with ⟨i, rfl, hi⟩ | ⟨op, -, rfl⟩ | ⟨rec, -, rfl⟩
  · exact exec_stored_kept hi hr
  all_goals simp

/-! ### Another register file -/

/-- The state with its register file replaced. -/
def State.withRegs (s : State) (regs : Vector Word 32) : State := { s with regs := regs }

/-- The two executions agree: both have a next state, the same one but for the registers other than
`dest`, or both are refused for the same reason. -/
def SameOutcome (dest : Option RegIdx) (o o' : Result) : Prop :=
  (∃ t t', o = .next t ∧ o' = .next t' ∧
    t'.pc = t.pc ∧ t'.mem = t.mem ∧ t'.halted = t.halted ∧ t'.statusFlags = t.statusFlags ∧
    t'.diag = t.diag ∧ t'.accesses = t.accesses ∧ ∀ rd, dest = some rd → t'.x rd = t.x rd) ∨
  ∃ why, o = .refused why ∧ o' = .refused why

section
variable {s : State} {regs : Vector Word 32} {rs1 rs2 : RegIdx}

/-! The operands, where the registers they come from agree. -/

theorem withRegs_shiftAmount (h2 : (s.withRegs regs).x rs2 = s.x rs2) :
    (s.withRegs regs).shiftAmount rs2 = s.shiftAmount rs2 := by
  simp only [State.shiftAmount, h2]

theorem withRegs_effAddr (imm : Word) (h1 : (s.withRegs regs).x rs1 = s.x rs1) :
    (s.withRegs regs).effAddr rs1 imm = s.effAddr rs1 imm := by
  simp only [State.effAddr, h1]

theorem withRegs_condEq (h1 : (s.withRegs regs).x rs1 = s.x rs1)
    (h2 : (s.withRegs regs).x rs2 = s.x rs2) :
    (s.withRegs regs).condEq rs1 rs2 = s.condEq rs1 rs2 := by
  simp only [State.condEq, h1, h2]

theorem withRegs_condLt (h1 : (s.withRegs regs).x rs1 = s.x rs1)
    (h2 : (s.withRegs regs).x rs2 = s.x rs2) :
    (s.withRegs regs).condLt rs1 rs2 = s.condLt rs1 rs2 := by
  simp only [State.condLt, h1, h2]

/-! The shared commits. -/

/-- The same value committed to the same register. -/
theorem commitReg_sameOutcome (s : State) (regs : Vector Word 32) (rd : RegIdx) (v : Word) :
    SameOutcome (some rd) (s.commitReg rd v) ((s.withRegs regs).commitReg rd v) := by
  refine .inl ⟨_, _, rfl, rfl, ?_, ?_, ?_, ?_, ?_, ?_, ?written⟩
  case written =>
    rintro _ ⟨⟩
    rw [State.setX_x_same, State.setX_x_same]
    rfl
  all_goals simp [State.withRegs]

/-- The same condition and offset of a branch. -/
theorem branch_sameOutcome (s : State) (regs : Vector Word 32) (c : Bool) (imm : Word) :
    SameOutcome none (s.branch c imm) ((s.withRegs regs).branch c imm) := by
  rw [branch_eq, branch_eq]
  exact .inl ⟨_, _, rfl, rfl, rfl, rfl, rfl, rfl, rfl, rfl, nofun⟩

/-- SW issues the same write, which the memory takes or refuses in both. -/
theorem execSw_sameOutcome (imm : Word) (h1 : (s.withRegs regs).x rs1 = s.x rs1)
    (h2 : (s.withRegs regs).x rs2 = s.x rs2) :
    SameOutcome none (execSw rs1 rs2 imm s) (execSw rs1 rs2 imm (s.withRegs regs)) := by
  have ha := withRegs_effAddr imm h1
  have hw : writePort (s.withRegs regs).cfg (s.withRegs regs).mem
      ((s.withRegs regs).effAddr rs1 imm) ((s.withRegs regs).x rs2) =
      writePort s.cfg s.mem (s.effAddr rs1 imm) (s.x rs2) := by rw [ha, h2]; rfl
  cases hm : writePort s.cfg s.mem (s.effAddr rs1 imm) (s.x rs2) with
  | none =>
    refine .inr ⟨_, execSw_refused hm, ?_⟩
    rw [execSw_refused (hw.trans hm), ha]
    rfl
  | some m =>
    refine .inl ⟨_, _, (execSw_next_iff _ _ _ _ _).2 ⟨m, hm, rfl⟩,
      (execSw_next_iff _ _ _ _ _).2 ⟨m, hw.trans hm, rfl⟩, rfl, rfl, rfl, rfl, rfl, ?_, nofun⟩
    simp only [State.logAccess_accesses, ha, h2]
    rfl

end

/-! ### The registers read -/

/-- An instruction's outcome depends on no register but its sources. -/
theorem exec_sameOutcome {i : Instr} {s : State} {regs : Vector Word 32}
    (h : ∀ r ∈ sourceRegs i, (s.withRegs regs).x r = s.x r) :
    SameOutcome (destReg i) (exec i s) (exec i (s.withRegs regs)) := by
  cases i with
  | hlt => exact .inl ⟨_, _, rfl, rfl, rfl, rfl, rfl, rfl, rfl, rfl, nofun⟩
  | lui rd imm | auipc rd imm => exact commitReg_sameOutcome s regs rd _
  | addi rd rs1 imm | slli rd rs1 imm =>
    have h1 := h rs1 (by simp [sourceRegs])
    simp only [exec, execAddi, execSlli, h1]
    exact commitReg_sameOutcome s regs rd _
  | add rd rs1 rs2 | sub rd rs1 rs2 | sll rd rs1 rs2 | slt rd rs1 rs2 | xor rd rs1 rs2
  | srl rd rs1 rs2 | sra rd rs1 rs2 | or rd rs1 rs2 | and rd rs1 rs2 =>
    have h1 := h rs1 (by simp [sourceRegs])
    have h2 := h rs2 (by simp [sourceRegs])
    simp only [exec, execAdd, execSub, execSll, execSlt, execXor, execSrl, execSra, execOr, execAnd,
      h1, h2, withRegs_shiftAmount h2, withRegs_condLt h1 h2]
    exact commitReg_sameOutcome s regs rd _
  | sw rs1 rs2 imm =>
    exact execSw_sameOutcome imm (h rs1 (by simp [sourceRegs])) (h rs2 (by simp [sourceRegs]))
  | beq rs1 rs2 imm | bne rs1 rs2 imm | blt rs1 rs2 imm | bge rs1 rs2 imm =>
    have h1 := h rs1 (by simp [sourceRegs])
    have h2 := h rs2 (by simp [sourceRegs])
    simp only [exec, execBeq, execBne, execBlt, execBge, withRegs_condEq h1 h2,
      withRegs_condLt h1 h2]
    exact branch_sameOutcome s regs _ imm

/-- The same of a decoded word; an unsupported one reads no register. -/
theorem execDecoded_sameOutcome {d : Decoded} {s : State} {regs : Vector Word 32}
    (h : ∀ r ∈ sourcesOf d, (s.withRegs regs).x r = s.x r) :
    SameOutcome (destOf d) (execDecoded d s) (execDecoded d (s.withRegs regs)) := by
  cases d with
  | instr i => exact exec_sameOutcome h
  | unsupportedOpcode op | unsupportedFunct rec =>
    exact .inl ⟨_, _, rfl, rfl, rfl, rfl, rfl, rfl, rfl, rfl, nofun⟩

end Sys2Proof.Machine

namespace Sys2Proof.Proofs

open Sys2Proof.Machine

/-- Settles O16: the column of written registers by `execDecoded_stored_kept`, the column of read ones by
`execDecoded_sameOutcome`. -/
theorem registersReadAndWrittenAreThoseOfTheTable :
    Obligations.RegistersReadAndWrittenAreThoseOfTheTable :=
  ⟨fun _ _ _ h _ hr => execDecoded_stored_kept h hr, fun _ _ _ h => execDecoded_sameOutcome h⟩

end Sys2Proof.Proofs
end

section
/-! SUPPORT. What a word store leaves at its own four bytes, the round trip of the memory port (R34,
R39), and O20 and O21. -/

namespace Sys2Proof.Machine

/-! ### The bytes a word store writes -/

/-- After `write32` the byte at offset `k` is byte `k` of the word: the write at `a + k` stored it, and
the later ones go to other addresses, also where the offsets wrap (R35, R37). -/
theorem Memory.read_write32_byte {m : Memory} (h : m.wf) (a v : Word) {k : Nat} (hk : k < 4) :
    (m.write32 a v).read (a + BitVec.ofNat 32 k).toNat = leByte v k := by
  have h0 := Memory.wf_write h a.isLt (leByte v 0)
  have h1 := Memory.wf_write h0 (a + 1#32).isLt (leByte v 1)
  have h2 := Memory.wf_write h1 (a + 2#32).isLt (leByte v 2)
  have ne : ∀ j < 4, k ≠ j → (a + BitVec.ofNat 32 k).toNat ≠ (a + BitVec.ofNat 32 j).toNat :=
    fun j hj => addr_ne a hk hj
  unfold Memory.write32
  match k with
  | 0 =>
    rw [Memory.read_write_other _ _ (ne 3 (by decide) (by decide)),
      Memory.read_write_other _ _ (ne 2 (by decide) (by decide)),
      Memory.read_write_other _ _ (ne 1 (by decide) (by decide)), BitVec.add_zero]
    exact Memory.read_write_same h _ _
  | 1 =>
    rw [Memory.read_write_other _ _ (ne 3 (by decide) (by decide)),
      Memory.read_write_other _ _ (ne 2 (by decide) (by decide))]
    exact Memory.read_write_same h0 _ _
  | 2 =>
    rw [Memory.read_write_other _ _ (ne 3 (by decide) (by decide))]
    exact Memory.read_write_same h1 _ _
  | 3 => exact Memory.read_write_same h2 _ _

/-- Read after write of a word, at every address (R34, R39). -/
theorem Memory.read32_write32_same {m : Memory} (h : m.wf) (a v : Word) :
    (m.write32 a v).read32 a = v := by
  have byte0 : (m.write32 a v).read a.toNat = leByte v 0 := by
    simpa using Memory.read_write32_byte h a v (k := 0) (by decide)
  have byte1 := Memory.read_write32_byte h a v (k := 1) (by decide)
  have byte2 := Memory.read_write32_byte h a v (k := 2) (by decide)
  have byte3 := Memory.read_write32_byte h a v (k := 3) (by decide)
  rw [Memory.read32, byte0, byte1, byte2, byte3, leWord_leByte]

/-! ### The contract of the port (R34) -/

/-- Read after write through the port, over every memory: the reference memory permits the read where it
permitted the write, and of another memory only the writes that read back are taken (log entry 18). -/
theorem readPort_of_writePort {c : Config} {m n : Memory} {a v : Word} (hm : m.wf)
    (h : writePort c m a v = some n) : readPort c n a = some v := by
  cases hk : c.memory with
  | refMem =>
    obtain ⟨hp, rfl⟩ := (writePort_refMem hk m n a v).1 h
    exact (readPort_refMem hk _ a v).2 ⟨hp, (Memory.read32_write32_same hm a v).symm⟩
  | other k =>
    obtain ⟨-, -, hread⟩ := (writePort_other hk m n a v).1 h
    simpa only [readPort, hk] using hread

/-- The word read at an address depends on the configuration and the memory alone, so a use of the port
on the record does not change it. -/
@[simp] theorem State.logAccess_wordAt (s : State) (x : Access) (a : Word) :
    (s.logAccess x).wordAt a = s.wordAt a := rfl

/-- A read through the port leaves the memory as it was, and the same read after it answers the same
word (R34, R39). -/
theorem State.memRead_repeated {s t u : State} {a v w : Word} (h : s.memRead a = some (v, t))
    (h' : t.memRead a = some (w, u)) : w = v ∧ t.mem = s.mem ∧ u.mem = s.mem := by
  obtain ⟨hv, rfl⟩ := (s.memRead_iff a v t).1 h
  obtain ⟨hw, rfl⟩ := (State.memRead_iff _ a w u).1 h'
  rw [State.logAccess_wordAt, hv] at hw
  exact ⟨(Option.some.inj hw).symm, rfl, rfl⟩

/-- Over the reference memory a write through the port is `write32` and nothing else to the memory. -/
theorem State.memWrite_refMem_mem {s t : State} {a v : Word} (hr : s.cfg.memory = .refMem)
    (h : s.memWrite a v = some t) : t.mem = s.mem.write32 a v := by
  obtain ⟨m, hm, rfl⟩ := (s.memWrite_iff a v t).1 h
  simpa using ((writePort_refMem hr _ m a v).1 hm).2

end Sys2Proof.Machine

namespace Sys2Proof.Proofs

open Sys2Proof.Machine

/-- Settles O20: the contract of the port by `readPort_of_writePort`, every address of the reference
memory by `Memory.read32_write32_same`; a read only joins the record, by `State.memRead_iff`. -/
theorem wordReadBackIsTheWordWritten : Obligations.WordReadBackIsTheWordWritten := by
  refine ⟨fun _ _ _ _ _ => readPort_of_writePort, fun _ a v h => Memory.read32_write32_same h a v,
    fun s t a w h => ?_⟩
  obtain ⟨-, rfl⟩ := (s.memRead_iff a w t).1 h
  exact ⟨rfl, rfl, rfl, ⟨rfl, rfl, rfl⟩, rfl⟩

/-- Settles O21: two reads agree by `State.memRead_repeated`; a write to the reference memory is
`write32`, which keeps the other bytes and makes its own four those of the word. -/
theorem memoryAccessesHaveNoSideEffect : Obligations.MemoryAccessesHaveNoSideEffect := by
  refine ⟨fun _ _ _ _ _ _ => State.memRead_repeated, fun s t a v hr h => ?_⟩
  have hmem : t.mem = s.mem.write32 a v := State.memWrite_refMem_mem hr h
  refine ⟨fun b h0 h1 h2 h3 => ?_, fun hwf => ?_⟩
  · rw [hmem, Memory.read_write32_other s.mem a v h0 h1 h2 h3]
  · rw [hmem, Memory.read32_write32_same hwf]

end Sys2Proof.Proofs
end

section
/-! SUPPORT. The bits of a sign-extended field and of the I, shift, S and B immediates, and O8. -/

namespace Sys2Proof

variable {k : Nat}

/-- Each bit of a sign-extended field: its own below the field's width, its top bit above (R7, R92). -/
theorem sext_getLsbD {n : Nat} (v : BitVec n) (hk : k < 32) :
    (sext v).getLsbD k = if k < n then v.getLsbD k else v.getLsbD (n - 1) := by
  simp only [sext, BitVec.getLsbD_signExtend, hk, decide_true, Bool.true_and,
    BitVec.msb_eq_getLsbD_last]

/-- R58. -/
theorem immI_getLsbD (w : Word) (hk : k < 32) :
    (immI w).getLsbD k = if k < 12 then w.getLsbD (20 + k) else w.getLsbD 31 := by
  rw [immI, sext_getLsbD _ hk]
  split_ifs with h <;> simp [h]

/-- R59. -/
theorem immShamt_getLsbD (w : Word) (hk : k < 32) :
    (immShamt w).getLsbD k = if k < 5 then w.getLsbD (20 + k) else false := by
  simp only [immShamt, BitVec.getLsbD_setWidth, BitVec.getLsbD_extractLsb', hk]
  split_ifs with h <;> simp [h]

/-- R60: the low field is `w[11:7]`, the high one `w[31:25]`. -/
theorem immS_getLsbD (w : Word) (hk : k < 32) :
    (immS w).getLsbD k =
      if k < 5 then w.getLsbD (7 + k) else if k < 12 then w.getLsbD (20 + k) else w.getLsbD 31 := by
  rw [immS, sext_getLsbD _ hk]
  simp only [BitVec.getLsbD_append, BitVec.getLsbD_extractLsb']
  by_cases h5 : k < 5
  · have h12 : k < 12 := by omega
    simp [h5, h12]
  · by_cases h12 : k < 12
    · have hfield : k - 5 < 7 := by omega
      have hplace : 25 + (k - 5) = 20 + k := by omega
      simp [h5, h12, hfield, hplace]
    · simp [h5, h12]

/-- R61: a zero, `w[11:8]`, `w[30:25]`, `w[7]` and the sign `w[31]`, from bit 0 up. -/
theorem immB_getLsbD (w : Word) (hk : k < 32) :
    (immB w).getLsbD k =
      if k = 0 then false else if k < 5 then w.getLsbD (7 + k)
      else if k < 11 then w.getLsbD (20 + k) else if k = 11 then w.getLsbD 7
      else w.getLsbD 31 := by
  rw [immB, sext_getLsbD _ hk]
  simp only [BitVec.getLsbD_append, BitVec.getLsbD_extractLsb']
  by_cases h13 : k < 13
  · simp only [h13]
    interval_cases k <;> simp
  · have h0 : k ≠ 0 := by omega
    have h5 : ¬ k < 5 := by omega
    have h11 : ¬ k < 11 := by omega
    have hne : k ≠ 11 := by omega
    simp [h13, h0, h5, h11, hne]

end Sys2Proof

namespace Sys2Proof.Proofs

open Sys2Proof.Machine

/-- Settles O8: the record of each class holds that class's immediate, whose bits are given by one lemma
per class. -/
theorem immediatesAreAssembledBitByBit : Obligations.ImmediatesAreAssembledBitByBit := by
  refine fun w k hk => ⟨fun hop h3 => ?_, fun hop h3 => ?_, fun hop => ?_, fun hop => ?_⟩
  · rw [decode_i hop h3, immI_getLsbD w hk]
  · rw [decode_ishift hop h3, immShamt_getLsbD w hk]
  · rw [decode_s hop, immS_getLsbD w hk]
  · rw [decode_b hop, immB_getLsbD w hk]

end Sys2Proof.Proofs
end

section
/-! SUPPORT. The four sets of R65: every word matches a row of R64 or is in one of the two unsupported
sets, the sets exclude each other, and each decodes as its name says; the step over a word of the last
two (R141, R142), and O6. -/

namespace Sys2Proof

/-! ### The rows of R64 as fields -/

/-- The fields that the row of `i` fixes are those of `i` in the word. -/
def Instr.codesMatch (i : Instr) (w : Word) : Prop :=
  match i with
  | .hlt | .lui _ _ | .auipc _ _ => fieldOpcode w = i.toRecord.opcode
  | .addi _ _ _ | .sw _ _ _ | .beq _ _ _ | .bne _ _ _ | .blt _ _ _ | .bge _ _ _ =>
    fieldOpcode w = i.toRecord.opcode ∧ fieldFunct3 w = i.toRecord.funct3
  | .slli _ _ _ | .add _ _ _ | .sub _ _ _ | .sll _ _ _ | .slt _ _ _ | .xor _ _ _ | .srl _ _ _
  | .sra _ _ _ | .or _ _ _ | .and _ _ _ =>
    fieldOpcode w = i.toRecord.opcode ∧ fieldFunct3 w = i.toRecord.funct3 ∧
      fieldFunct7 w = i.toRecord.funct7

/-- A word matches the row of `i` exactly when it has the row's fields (R64). -/
theorem row_match_iff_codesMatch (i : Instr) (w : Word) :
    w &&& i.row.mask = i.row.matchWord ↔ i.codesMatch w := by
  cases i with
  | hlt => exact mask7_iff w 0x00#7
  | lui => exact mask7_iff w 0x37#7
  | auipc => exact mask7_iff w 0x17#7
  | addi => exact mask10_iff w 0x13#7 0#3
  | slli => exact mask17_iff w 0x13#7 1#3 0x00#7
  | add => exact mask17_iff w 0x33#7 0#3 0x00#7
  | sub => exact mask17_iff w 0x33#7 0#3 0x20#7
  | sll => exact mask17_iff w 0x33#7 1#3 0x00#7
  | slt => exact mask17_iff w 0x33#7 2#3 0x00#7
  | xor => exact mask17_iff w 0x33#7 4#3 0x00#7
  | srl => exact mask17_iff w 0x33#7 5#3 0x00#7
  | sra => exact mask17_iff w 0x33#7 5#3 0x20#7
  | or => exact mask17_iff w 0x33#7 6#3 0x00#7
  | and => exact mask17_iff w 0x33#7 7#3 0x00#7
  | sw => exact mask10_iff w 0x23#7 2#3
  | beq => exact mask10_iff w 0x63#7 0#3
  | bne => exact mask10_iff w 0x63#7 1#3
  | blt => exact mask10_iff w 0x63#7 4#3
  | bge => exact mask10_iff w 0x63#7 5#3

/-- A word with the fields of a row decodes to an instruction of that row. -/
theorem decodeWord_of_codesMatch {i : Instr} {w : Word} (h : i.codesMatch w) :
    ∃ j, decodeWord w = .instr j ∧ j.row = i.row := by
  cases i with
  | hlt => exact ⟨.hlt, by rw [decodeWord, decode_hlt h]; rfl, rfl⟩
  | lui => exact ⟨.lui (fieldRd w) (immU w), by rw [decodeWord, decode_lui h]; rfl, rfl⟩
  | auipc => exact ⟨.auipc (fieldRd w) (immU w), by rw [decodeWord, decode_auipc h]; rfl, rfl⟩
  | addi =>
    obtain ⟨hop, h3⟩ := h
    refine ⟨.addi (fieldRd w) (fieldRs1 w) (immI w), ?_, rfl⟩
    rw [decodeWord, decode_i hop (by simp [h3, Instr.toRecord]), h3]
    rfl
  | slli =>
    obtain ⟨hop, h3, h7⟩ := h
    refine ⟨.slli (fieldRd w) (fieldRs1 w) (immShamt w), ?_, rfl⟩
    rw [decodeWord, decode_ishift hop h3, h7]
    rfl
  | sw =>
    obtain ⟨hop, h3⟩ := h
    refine ⟨.sw (fieldRs1 w) (fieldRs2 w) (immS w), ?_, rfl⟩
    rw [decodeWord, decode_s hop, h3]
    rfl
  | add | sub | sll | slt | xor | srl | sra | or | and =>
    obtain ⟨hop, h3, h7⟩ := h
    rw [decodeWord, decode_r hop, h3, h7]
    exact ⟨_, rfl, rfl⟩
  | beq | bne | blt | bge =>
    obtain ⟨hop, h3⟩ := h
    rw [decodeWord, decode_b hop, h3]
    exact ⟨_, rfl, rfl⟩

/-- The rows after the first are those of the instructions other than HLT (R64). -/
theorem mem_opcodeTable_tail_iff (r : OpcodeRow) :
    r ∈ opcodeTable.tail ↔ ∃ i, i ≠ Instr.hlt ∧ i.row = r := by
  constructor
  · intro h
    simp only [opcodeTable, List.cons_append, List.nil_append, List.tail_cons, List.mem_cons,
      List.not_mem_nil, or_false] at h
    rcases h with rfl | rfl | rfl | rfl | rfl | rfl | rfl | rfl | rfl | rfl | rfl | rfl | rfl |
      rfl | rfl | rfl | rfl | rfl
    all_goals
      refine ⟨_, ?_, rfl⟩
      nofun
  · rintro ⟨i, hi, rfl⟩
    cases i with
    | hlt => exact absurd rfl hi
    | _ => simp [opcodeTable, Instr.row]

/-- HLT's row is HLT's alone. -/
theorem row_eq_hlt_row {i : Instr} (h : i.row = Instr.hlt.row) : i = .hlt := by
  cases i with
  | hlt => rfl
  | _ => simp [Instr.row] at h

end Sys2Proof

namespace Sys2Proof.Machine

/-! ### The sets exclude each other -/

theorem not_unsupportedFunctWord_of_codesMatch {i : Instr} {w : Word} (h : i.codesMatch w) :
    ¬ unsupportedFunctWord w := by
  cases i with
  | hlt | lui | auipc =>
    have hop : fieldOpcode w = _ := h
    simp [unsupportedFunctWord, hop, Instr.toRecord, DecodedInstruction.bare]
  | addi | sw | beq | bne | blt | bge =>
    obtain ⟨hop, h3⟩ := h
    simp [unsupportedFunctWord, hop, h3, Instr.toRecord]
  | slli | add | sub | sll | slt | xor | srl | sra | or | and =>
    obtain ⟨hop, h3, h7⟩ := h
    simp [unsupportedFunctWord, hop, h3, h7, Instr.toRecord]

theorem not_unsupportedOpcodeWord_of_codesMatch {i : Instr} {w : Word} (h : i.codesMatch w) :
    ¬ unsupportedOpcodeWord w := by
  have hop : fieldOpcode w = i.toRecord.opcode := by
    cases i with
    | hlt | lui | auipc => exact h
    | _ => exact h.1
  cases i <;> simp [unsupportedOpcodeWord, hop, Instr.toRecord, DecodedInstruction.bare]

theorem not_unsupportedOpcodeWord_of_unsupportedFunctWord {w : Word} (h : unsupportedFunctWord w) :
    ¬ unsupportedOpcodeWord w := by
  rcases h with ⟨hop, -⟩ | ⟨hop, -⟩ | ⟨hop, -⟩ | ⟨hop, -⟩ <;> simp [unsupportedOpcodeWord, hop]

/-! ### The set of each word -/

/-- The word is in the set of R65 that its decoding names: the words of the instruction's row, or one
of the two unsupported sets. -/
def InSetNamedBy (w : Word) : Decoded → Prop
  | .instr i => i.codesMatch w
  | .unsupportedFunct _ => unsupportedFunctWord w
  | .unsupportedOpcode _ => unsupportedOpcodeWord w

section
variable {w : Word}

/-- Opcode `0x13` (R143). -/
theorem dispatchI_inSet (hop : fieldOpcode w = 0x13#7) (h3 : (decode w).funct3 = fieldFunct3 w)
    (h7 : fieldFunct3 w = 1#3 → (decode w).funct7 = fieldFunct7 w) :
    InSetNamedBy w (dispatchI (decode w)) := by
  simp only [dispatchI, h3]
  split_ifs with addi slli
  · exact ⟨hop, addi⟩
  · exact ⟨hop, slli.1, (h7 slli.1).symm.trans slli.2⟩
  · refine .inl ⟨hop, ?_⟩
    by_cases h1 : fieldFunct3 w = 1#3
    · exact .inr ⟨h1, fun h => slli ⟨h1, (h7 h1).trans h⟩⟩
    · have rest : ∀ f : BitVec 3, f ≠ 0#3 → f ≠ 1#3 → f ∈ [2#3, 3#3, 4#3, 5#3, 6#3, 7#3] := by decide
      exact .inl (rest _ addi h1)

/-- Opcode `0x33` (R144). -/
theorem dispatchR_inSet (hop : fieldOpcode w = 0x33#7) (h3 : (decode w).funct3 = fieldFunct3 w)
    (h7 : (decode w).funct7 = fieldFunct7 w) : InSetNamedBy w (dispatchR (decode w)) := by
  simp only [dispatchR, h3, h7]
  split_ifs with add sub sll slt xor srl sra or and
  · exact ⟨hop, add⟩
  · exact ⟨hop, sub⟩
  · exact ⟨hop, sll⟩
  · exact ⟨hop, slt⟩
  · exact ⟨hop, xor⟩
  · exact ⟨hop, srl⟩
  · exact ⟨hop, sra⟩
  · exact ⟨hop, or⟩
  · exact ⟨hop, and⟩
  · refine .inr (.inl ⟨hop, ?_⟩)
    simp only [List.mem_cons, List.not_mem_nil, Prod.mk.injEq, or_false, not_or]
    exact ⟨add, sub, sll, slt, xor, srl, sra, or, and⟩

/-- Opcode `0x23` (R145). -/
theorem dispatchS_inSet (hop : fieldOpcode w = 0x23#7) (h3 : (decode w).funct3 = fieldFunct3 w) :
    InSetNamedBy w (dispatchS (decode w)) := by
  simp only [dispatchS, h3]
  split_ifs with sw
  · exact ⟨hop, sw⟩
  · have rest : ∀ f : BitVec 3, f ≠ 2#3 → f ∈ [0#3, 1#3, 3#3, 4#3, 5#3, 6#3, 7#3] := by decide
    exact .inr (.inr (.inl ⟨hop, rest _ sw⟩))

/-- Opcode `0x63` (R146). -/
theorem dispatchB_inSet (hop : fieldOpcode w = 0x63#7) (h3 : (decode w).funct3 = fieldFunct3 w) :
    InSetNamedBy w (dispatchB (decode w)) := by
  simp only [dispatchB, h3]
  split_ifs with beq bne blt bge
  · exact ⟨hop, beq⟩
  · exact ⟨hop, bne⟩
  · exact ⟨hop, blt⟩
  · exact ⟨hop, bge⟩
  · have rest : ∀ f : BitVec 3, f ≠ 0#3 → f ≠ 1#3 → f ≠ 4#3 → f ≠ 5#3 →
        f ∈ [2#3, 3#3, 6#3, 7#3] := by decide
    exact .inr (.inr (.inr ⟨hop, rest _ beq bne blt bge⟩))

end

/-- Every word is in the set that its decoding names. -/
theorem decodeWord_inSet (w : Word) : InSetNamedBy w (decodeWord w) := by
  rcases decodeWord_cases w with ⟨hop, hd⟩ | ⟨hop, rd, imm, hd⟩ | ⟨hop, rd, imm, hd⟩ |
    ⟨hop, hd, h3, h7⟩ | ⟨hop, hd, h3, h7⟩ | ⟨hop, hd, h3⟩ | ⟨hop, hd, h3, -⟩ | ⟨hop, hd⟩ <;> rw [hd]
  · exact hop
  · exact hop
  · exact hop
  · exact dispatchI_inSet hop h3 h7
  · exact dispatchR_inSet hop h3 h7
  · exact dispatchS_inSet hop h3
  · exact dispatchB_inSet hop h3
  · exact mt (List.Perm.mem_iff (by decide)).1 hop

/-- A decoded instruction's row matches the word. -/
theorem codesMatch_of_decodeWord {w : Word} {i : Instr} (h : decodeWord w = .instr i) :
    i.codesMatch w := by
  have hset := decodeWord_inSet w
  rwa [h] at hset

/-- Set 1: HLT is the words with opcode 0. -/
theorem decodeWord_eq_hlt_iff (w : Word) : decodeWord w = .instr .hlt ↔ fieldOpcode w = 0#7 := by
  refine ⟨codesMatch_of_decodeWord, fun h => ?_⟩
  rw [decodeWord, decode_hlt h]
  rfl

/-- Set 2: the other instructions are the words that match one of their rows. -/
theorem decodeWord_supported_iff (w : Word) :
    (∃ i, i ≠ .hlt ∧ decodeWord w = .instr i) ↔
      ∃ r ∈ opcodeTable.tail, w &&& r.mask = r.matchWord := by
  constructor
  · rintro ⟨i, hi, hd⟩
    exact ⟨i.row, (mem_opcodeTable_tail_iff _).2 ⟨i, hi, rfl⟩,
      (row_match_iff_codesMatch i w).2 (codesMatch_of_decodeWord hd)⟩
  · rintro ⟨r, hr, hw⟩
    obtain ⟨i, hi, rfl⟩ := (mem_opcodeTable_tail_iff r).1 hr
    obtain ⟨j, hd, hrow⟩ := decodeWord_of_codesMatch ((row_match_iff_codesMatch i w).1 hw)
    refine ⟨j, ?_, hd⟩
    rintro rfl
    exact hi (row_eq_hlt_row hrow.symm)

/-- Set 3: the unsupported function codes. -/
theorem decodeWord_unsupportedFunct_iff (w : Word) :
    (∃ d, decodeWord w = .unsupportedFunct d) ↔ unsupportedFunctWord w := by
  have hset := decodeWord_inSet w
  constructor
  · rintro ⟨d, hd⟩
    rwa [hd] at hset
  · intro h
    cases hd : decodeWord w with rw [hd] at hset
    | instr i => exact absurd h (not_unsupportedFunctWord_of_codesMatch hset)
    | unsupportedFunct d => exact ⟨d, rfl⟩
    | unsupportedOpcode op => exact absurd hset (not_unsupportedOpcodeWord_of_unsupportedFunctWord h)

/-- Set 4: the unsupported opcodes. -/
theorem decodeWord_unsupportedOpcode_iff (w : Word) :
    (∃ op, decodeWord w = .unsupportedOpcode op) ↔ unsupportedOpcodeWord w := by
  have hset := decodeWord_inSet w
  constructor
  · rintro ⟨op, hd⟩
    rwa [hd] at hset
  · intro h
    cases hd : decodeWord w with rw [hd] at hset
    | instr i => exact absurd h (not_unsupportedOpcodeWord_of_codesMatch hset)
    | unsupportedFunct d => exact absurd h (not_unsupportedOpcodeWord_of_unsupportedFunctWord hset)
    | unsupportedOpcode op => exact ⟨op, rfl⟩

/-! ### The step over an unsupported word -/

/-- Fetching and skipping is all that `Skipped` allows (R141, R142). -/
theorem skipped_skipWith (d : Diag) (s : State) :
    Skipped d s ((s.beginStep.logAccess (.read s.pc)).skipWith d) := by
  refine ⟨?_, ?_, ?_, fun r => ?_, fun a => ?_, ⟨?_, ?_, ?_⟩⟩ <;> simp [BitVec.toNat_add]

/-- R142: a running machine steps over a word with an unsupported function code. -/
theorem step_unsupportedFunctWord {s : State} {w : Word} (hr : s.halted = false)
    (hw : s.wordAt s.pc = some w) (h : unsupportedFunctWord w) :
    ∃ t, step s = .next t ∧ Skipped .unsupportedFunct s t := by
  obtain ⟨d, hd⟩ := (decodeWord_unsupportedFunct_iff w).2 h
  refine ⟨_, ?_, skipped_skipWith .unsupportedFunct s⟩
  rw [step_running hr hw, hd]
  rfl

/-- R141: a running machine steps over a word with an unsupported opcode. -/
theorem step_unsupportedOpcodeWord {s : State} {w : Word} (hr : s.halted = false)
    (hw : s.wordAt s.pc = some w) (h : unsupportedOpcodeWord w) :
    ∃ t, step s = .next t ∧ Skipped .unsupportedOpcode s t := by
  obtain ⟨op, hd⟩ := (decodeWord_unsupportedOpcode_iff w).2 h
  refine ⟨_, ?_, skipped_skipWith .unsupportedOpcode s⟩
  rw [step_running hr hw, hd]
  rfl

end Sys2Proof.Machine

namespace Sys2Proof.Proofs

open Sys2Proof.Machine

/-- Settles O6: one lemma per set of R65, and one per kind of unsupported word for the step over it. -/
theorem everyWordFallsInOneOfFourSets : Obligations.EveryWordFallsInOneOfFourSets := by
  refine ⟨fun w => ⟨decodeWord_eq_hlt_iff w, decodeWord_supported_iff w,
    decodeWord_unsupportedFunct_iff w, decodeWord_unsupportedOpcode_iff w⟩, fun s w hr hw h => ?_⟩
  rcases h with h | h
  · obtain ⟨t, ht, hskip⟩ := step_unsupportedFunctWord hr hw h
    exact ⟨t, .unsupportedFunct, ht, nofun, hskip⟩
  · obtain ⟨t, ht, hskip⟩ := step_unsupportedOpcodeWord hr hw h
    exact ⟨t, .unsupportedOpcode, ht, nofun, hskip⟩

end Sys2Proof.Proofs
end

section
/-! SUPPORT. Sign extension as an OR with ones and as a signed number (R92), the shift and U
immediates as numbers (R59, R62), and O7 and O9. -/

namespace Sys2Proof

/-- Ones from place `n` up: the masks `0xFFFFF000` (`n = 12`) and `0xFFFFE000` (`n = 13`) of R62 and
R92. -/
theorem onesFrom_getLsbD {n k : Nat} (hk : k < 32) :
    (BitVec.allOnes 32 <<< n).getLsbD k = decide (n ≤ k) := by
  have hkn : k - n < 32 := by omega
  simp only [BitVec.getLsbD_shiftLeft, BitVec.getLsbD_allOnes, hk, hkn, decide_true, Bool.true_and,
    Bool.and_true, ← decide_not, Nat.not_lt]

/-- Above the field the extension is the sign bit, so it is the OR with ones there exactly when that
bit is set (R92). -/
theorem sext_eq_or_ones {n : Nat} (v : BitVec n) :
    sext v = if v.getLsbD (n - 1) then v.setWidth 32 ||| (BitVec.allOnes 32 <<< n)
      else v.setWidth 32 := by
  refine BitVec.eq_of_getLsbD_eq fun k hk => ?_
  rw [sext_getLsbD v hk]
  have hfield : (v.setWidth 32).getLsbD k = v.getLsbD k := by simp [hk]
  split_ifs with hkn hs hs
  · rw [BitVec.getLsbD_or, onesFrom_getLsbD hk, hfield, decide_eq_false (by omega), Bool.or_false]
  · exact hfield.symm
  · rw [BitVec.getLsbD_or, onesFrom_getLsbD hk, hs, decide_eq_true (by omega), Bool.or_true]
  · rw [hfield, BitVec.getLsbD_of_ge v k (by omega)]
    exact Bool.eq_false_of_not_eq_true hs

/-- The signed reading of the extension: the field's value, less `2 ^ n` in its upper half (R92). -/
theorem sext_toInt_eq_ite {n : Nat} (hn : n ≤ 32) (v : BitVec n) :
    (sext v).toInt = if 2 * v.toNat < 2 ^ n then (v.toNat : Int) else v.toNat - (2 ^ n : Nat) := by
  rw [sext_toInt hn, BitVec.toInt_eq_toNat_cond]

/-- R59: the shift immediate is the number in `w[24:20]`, zero-extended. -/
theorem immShamt_toNat (w : Word) : (immShamt w).toNat = w.toNat / 2 ^ 20 % 32 := by
  rw [immShamt, BitVec.toNat_setWidth, BitVec.extractLsb'_toNat, Nat.shiftRight_eq_div_pow]
  omega

/-- R62: the mask clears the low 12 bits and keeps the others in their place. -/
theorem immU_eq_shift (w : Word) : immU w = w >>> 12 <<< 12 := by
  have hmask : 0xFFFFF000#32 = BitVec.allOnes 32 <<< 12 := by decide
  refine BitVec.eq_of_getLsbD_eq fun k hk => ?_
  rw [immU, hmask, BitVec.getLsbD_and, onesFrom_getLsbD hk]
  by_cases h : 12 ≤ k <;> simp [h, hk]

/-- R62: the upper immediate as a number. -/
theorem immU_toNat (w : Word) : (immU w).toNat = w.toNat - w.toNat % 4096 := by
  rw [immU_eq_shift, BitVec.toNat_shiftLeft, BitVec.toNat_ushiftRight, Nat.shiftRight_eq_div_pow,
    Nat.shiftLeft_eq]
  omega

end Sys2Proof

namespace Sys2Proof.Proofs

/-- Settles O7: the extension by `sext_eq_or_ones` and `sext_toInt_eq_ite` at widths 12 and 13; the
record of each class holds that class's immediate, whose bit 31 or number is given by one lemma per
class. -/
theorem signExtensionFillsWithTheSignBit : Obligations.SignExtensionFillsWithTheSignBit := by
  refine ⟨fun v => ⟨sext_eq_or_ones v, ?_⟩, fun v => ⟨sext_eq_or_ones v, ?_⟩,
    fun w => ⟨?_, ?_, ?_⟩⟩
  · rw [sext_toInt_eq_ite (by decide)]
    split_ifs <;> omega
  · rw [sext_toInt_eq_ite (by decide)]
    split_ifs <;> omega
  · rintro (⟨hop, h3⟩ | hop | hop)
    · rw [decode_i hop h3]
      exact immI_getLsbD w (by decide)
    · rw [decode_s hop]
      exact immS_getLsbD w (by decide)
    · rw [decode_b hop]
      exact immB_getLsbD w (by decide)
  · intro hop h3
    rw [decode_ishift hop h3]
    exact immShamt_toNat w
  · rintro (hop | hop)
    · rw [decode_lui hop]
      exact immU_toNat w
    · rw [decode_auipc hop]
      exact immU_toNat w

/-- Settles O9: the record of each class is the model's own lemma for it; both U-type opcodes have
one. -/
theorem decodedRecordOfHltUpperShiftAndRegisterWords :
    Obligations.DecodedRecordOfHltUpperShiftAndRegisterWords := by
  refine fun w => ⟨decode_opcode w, decode_hlt, ?_, decode_ishift, decode_r⟩
  rintro op (rfl | rfl)
  · exact decode_lui
  · exact decode_auipc

end Sys2Proof.Proofs
end

section
/-! SUPPORT. What a word with the opcode of LUI or AUIPC decodes to (R62, R156), and O24 and O25. -/

namespace Sys2Proof

theorem decodeWord_lui {w : Word} (h : fieldOpcode w = 0x37#7) :
    decodeWord w = .instr (.lui (fieldRd w) (immU w)) := by
  rw [decodeWord, decode_lui h]
  rfl

theorem decodeWord_auipc {w : Word} (h : fieldOpcode w = 0x17#7) :
    decodeWord w = .instr (.auipc (fieldRd w) (immU w)) := by
  rw [decodeWord, decode_auipc h]
  rfl

end Sys2Proof

namespace Sys2Proof.Proofs

open Sys2Proof.Machine

/-- Settles O24: the mask of LUI's row fixes the opcode, which fixes the decoding; the execution is the
commit of the immediate, whose frame is `writesOnly_commit`. -/
theorem luiPlacesTheUpperImmediate : Obligations.LuiPlacesTheUpperImmediate := by
  refine ⟨fun w h => ?decoding, fun rd imm s => ?execution⟩
  case decoding => exact decodeWord_lui ((mask7_iff w 0x37#7).1 h)
  case execution => exact ⟨s.nextOf.setX rd imm, rfl, writesOnly_commit s rd imm⟩

/-- Settles O25: as O24, the value committed being the sum of the immediate and the PC of the AUIPC
itself, before the default advance (R101). -/
theorem auipcAddsTheImmediateToItsOwnAddress :
    Obligations.AuipcAddsTheImmediateToItsOwnAddress := by
  refine ⟨fun w h => ?decoding, fun rd imm s => ?execution⟩
  case decoding => exact decodeWord_auipc ((mask7_iff w 0x17#7).1 h)
  case execution =>
    exact ⟨s.pc + imm, s.nextOf.setX rd (s.pc + imm), BitVec.toNat_add s.pc imm, rfl,
      writesOnly_commit s rd (s.pc + imm)⟩

end Sys2Proof.Proofs
end

section
/-! SUPPORT. What a word of ADDI's row decodes to (R58, R64, R156), and O26. -/

namespace Sys2Proof

theorem decodeWord_addi {w : Word} (hop : fieldOpcode w = 0x13#7) (h3 : fieldFunct3 w = 0#3) :
    decodeWord w = .instr (.addi (fieldRd w) (fieldRs1 w) (immI w)) := by
  have hshift : fieldFunct3 w ≠ 1#3 := by simp [h3]
  rw [decodeWord, decode_i hop hshift, h3]
  rfl

end Sys2Proof

namespace Sys2Proof.Proofs

open Sys2Proof.Machine

/-- Settles O26: as O24, the mask of ADDI's row fixing the opcode and funct3, and the value committed
being the sum of x[rs1] and the immediate, both read before the write, so rd = rs1 is no exception. -/
theorem addiAddsTheSignedImmediate : Obligations.AddiAddsTheSignedImmediate := by
  refine ⟨fun w h => ?decoding, fun rd rs1 imm s => ?execution⟩
  case decoding =>
    obtain ⟨hop, h3⟩ := (mask10_iff w 0x13#7 0#3).1 h
    exact decodeWord_addi hop h3
  case execution =>
    exact ⟨s.x rs1 + imm, s.nextOf.setX rd (s.x rs1 + imm), BitVec.toNat_add (s.x rs1) imm, rfl,
      writesOnly_commit s rd (s.x rs1 + imm)⟩

end Sys2Proof.Proofs
end

section
/-! SUPPORT. The register-register instructions: what a word of one of their rows decodes to (R64,
R144), the operands of the shifts and of SLT as numbers (R119), what each execution commits (R154), and
O28 to O33, O35 and O36. -/

namespace Sys2Proof

/-- A word with the opcode, `funct3` and `funct7` that a register-register row fixes is looked up by
these two codes, with its own register fields as operands. -/
theorem decodeWord_of_mask17_r {w : Word} (f3 : BitVec 3) (f7 : BitVec 7)
    (h : w &&& 0xFE00707F#32 = place f7 25 ||| place f3 12 ||| place 0x33#7 0) :
    decodeWord w =
      dispatchR ⟨0x33#7, fieldRd w, fieldRs1 w, fieldRs2 w, f3, f7, 0#32⟩ := by
  obtain ⟨hop, h3, h7⟩ := (mask17_iff w 0x33#7 f3 f7).1 h
  rw [decodeWord, decode_r hop, h3, h7]
  rfl

end Sys2Proof

namespace Sys2Proof.Machine

/-- The mask `0x1F` of R119 item 3 is the remainder by 32. -/
theorem State.shiftAmount_eq_mod (s : State) (rs2 : RegIdx) :
    s.shiftAmount rs2 = (s.x rs2).toNat % 32 := by
  rw [State.shiftAmount, BitVec.toNat_and]
  exact Nat.and_two_pow_sub_one_eq_mod _ 5

theorem boolWord_decide_toNat (p : Prop) [Decidable p] :
    (boolWord (decide p)).toNat = if p then 1 else 0 := by
  by_cases hp : p <;> simp [boolWord, hp]

/-- The unsigned reading of a difference, as an integer modulo 2^32 (R119 item 1). -/
theorem word_sub_toNat (a b : Word) :
    ((a - b).toNat : Int) = (a.toNat - b.toNat : Int) % 2 ^ 32 := by
  have ha := a.isLt
  have hb := b.isLt
  rw [BitVec.toNat_sub]
  omega

/-- An instruction that commits a value with the property `P` to `rd` has a next state, in which only
that register was written. -/
theorem exec_commits {P : Word → Prop} {i : Instr} {rd : RegIdx} {v : Word} {s : State}
    (he : exec i s = s.commitReg rd v) (hv : P v) :
    ∃ v t, P v ∧ exec i s = .next t ∧ WritesOnly rd v s t :=
  ⟨v, s.nextOf.setX rd v, hv, he, writesOnly_commit s rd v⟩

end Sys2Proof.Machine

namespace Sys2Proof.Proofs

open Sys2Proof.Machine

/-- Settles O28: the row's mask fixes the function codes 0 and 0x00; the value committed is the sum of
two operands read before the write, so that rd may be a source. -/
theorem addIsTheSumModulo : Obligations.AddIsTheSumModulo := by
  refine ⟨fun w h => ?decoding, fun rd rs1 rs2 s => ?execution⟩
  case decoding => exact decodeWord_of_mask17_r 0#3 0x00#7 h
  case execution => exact exec_commits rfl (BitVec.toNat_add (s.x rs1) (s.x rs2))

/-- Settles O29: as O28, the difference read by `word_sub_toNat`. -/
theorem subIsTheDifferenceModulo : Obligations.SubIsTheDifferenceModulo := by
  refine ⟨fun w h => ?decoding, fun rd rs1 rs2 s => ?execution⟩
  case decoding => exact decodeWord_of_mask17_r 0#3 0x20#7 h
  case execution => exact exec_commits rfl (word_sub_toNat (s.x rs1) (s.x rs2))

/-- Settles O30: as O28; a left shift multiplies by a power of two, and the amount is x[rs2] mod 32. -/
theorem sllShiftsLeftByTheLowFiveBits : Obligations.SllShiftsLeftByTheLowFiveBits := by
  refine ⟨fun w h => ?decoding, fun rd rs1 rs2 s => ?execution⟩
  case decoding => exact decodeWord_of_mask17_r 1#3 0x00#7 h
  case execution =>
    refine exec_commits (v := s.x rs1 <<< s.shiftAmount rs2) rfl ?_
    rw [BitVec.toNat_shiftLeft, Nat.shiftLeft_eq, State.shiftAmount_eq_mod]

/-- Settles O31: as O28; the condition is decided on the signed readings and committed as 1 or 0. -/
theorem sltComparesSigned : Obligations.SltComparesSigned := by
  refine ⟨fun w h => ?decoding, fun rd rs1 rs2 s => ?execution⟩
  case decoding => exact decodeWord_of_mask17_r 2#3 0x00#7 h
  case execution =>
    exact exec_commits rfl (boolWord_decide_toNat ((s.x rs1).toInt < (s.x rs2).toInt))

/-- Settles O32: as O28, the value committed being given bit by bit. -/
theorem xorIsBitwise : Obligations.XorIsBitwise := by
  refine ⟨fun w h => ?decoding, fun rd rs1 rs2 s => ?execution⟩
  case decoding => exact decodeWord_of_mask17_r 4#3 0x00#7 h
  case execution =>
    exact exec_commits (v := s.x rs1 ^^^ s.x rs2) rfl fun _ _ => BitVec.getLsbD_xor

/-- Settles O33: as O30; a right shift that fills with zeros is the floor of the unsigned reading. -/
theorem srlFillsWithZeros : Obligations.SrlFillsWithZeros := by
  refine ⟨fun w h => ?decoding, fun rd rs1 rs2 s => ?execution⟩
  case decoding => exact decodeWord_of_mask17_r 5#3 0x00#7 h
  case execution =>
    refine exec_commits (v := s.x rs1 >>> s.shiftAmount rs2) rfl ?_
    rw [BitVec.toNat_ushiftRight, Nat.shiftRight_eq_div_pow, State.shiftAmount_eq_mod]

/-- Settles O35: as O32. -/
theorem orIsBitwise : Obligations.OrIsBitwise := by
  refine ⟨fun w h => ?decoding, fun rd rs1 rs2 s => ?execution⟩
  case decoding => exact decodeWord_of_mask17_r 6#3 0x00#7 h
  case execution =>
    exact exec_commits (v := s.x rs1 ||| s.x rs2) rfl fun _ _ => BitVec.getLsbD_or

/-- Settles O36: as O32. -/
theorem andIsBitwise : Obligations.AndIsBitwise := by
  refine ⟨fun w h => ?decoding, fun rd rs1 rs2 s => ?execution⟩
  case decoding => exact decodeWord_of_mask17_r 7#3 0x00#7 h
  case execution =>
    exact exec_commits (v := s.x rs1 &&& s.x rs2) rfl fun _ _ => BitVec.getLsbD_and

end Sys2Proof.Proofs
end

section
/-! SUPPORT. The branches: what a word of one of their rows decodes to (R61, R64, R146), the conditions
as propositions on the two register values (R119), where a branch goes (R134), and O38 to O41. -/

namespace Sys2Proof

/-- A word with the opcode and `funct3` that a branch row fixes is looked up by this code, with its own
register fields and B immediate as operands. -/
theorem decodeWord_of_mask10_b {w : Word} (f3 : BitVec 3)
    (h : w &&& 0x0000707F#32 = place f3 12 ||| place 0x63#7 0) :
    decodeWord w = dispatchB ⟨0x63#7, 0#5, fieldRs1 w, fieldRs2 w, f3, 0#7, immB w⟩ := by
  obtain ⟨hop, h3⟩ := (mask10_iff w 0x63#7 f3).1 h
  rw [decodeWord, decode_b hop, h3]
  rfl

end Sys2Proof

namespace Sys2Proof.Machine

/-! ### The conditions -/

theorem State.condEq_iff (s : State) (rs1 rs2 : RegIdx) :
    s.condEq rs1 rs2 = true ↔ s.x rs1 = s.x rs2 :=
  beq_iff_eq

theorem State.not_condEq_iff (s : State) (rs1 rs2 : RegIdx) :
    (!s.condEq rs1 rs2) = true ↔ s.x rs1 ≠ s.x rs2 := by
  rw [Bool.not_eq_true', ← Bool.not_eq_true, State.condEq_iff]

theorem State.condLt_iff (s : State) (rs1 rs2 : RegIdx) :
    s.condLt rs1 rs2 = true ↔ (s.x rs1).toInt < (s.x rs2).toInt :=
  decide_eq_true_iff

theorem State.not_condLt_iff (s : State) (rs1 rs2 : RegIdx) :
    (!s.condLt rs1 rs2) = true ↔ (s.x rs1).toInt ≥ (s.x rs2).toInt := by
  rw [Bool.not_eq_true', ← Bool.not_eq_true, State.condLt_iff, Int.not_lt]

/-! ### Where a branch goes -/

/-- An instruction that branches on a condition which means `P` has a next state, in which only the PC
changed: to its own address plus the offset if `P` holds, else by the default advance (R134). -/
theorem exec_branches {P : Prop} [Decidable P] {i : Instr} {c : Bool} {imm : Word} {s : State}
    (he : exec i s = s.branch c imm) (hc : c = true ↔ P) :
    ∃ t, exec i s = .next t ∧ OnlyPcChanged s t ∧
      t.pc.toNat = if P then (s.pc.toNat + imm.toNat) % 2 ^ 32 else (s.pc.toNat + 4) % 2 ^ 32 := by
  refine ⟨_, he.trans (branch_eq s c imm), onlyPcChanged_setPc s _, ?_⟩
  by_cases hP : P
  · rw [State.setPc_pc, if_pos (hc.2 hP), if_pos hP, BitVec.toNat_add]
  · rw [State.setPc_pc, if_neg (mt hc.1 hP), if_neg hP, BitVec.toNat_add]
    rfl

/-- Of two branches on opposite conditions with the same offset exactly one is taken. -/
theorem branch_not_opposite {s t u : State} {c : Bool} {imm : Word}
    (ht : s.branch (!c) imm = .next t) (hu : s.branch c imm = .next u) :
    (t.pc = s.pc + imm ∧ u.pc = s.pc + 4#32) ∨ (t.pc = s.pc + 4#32 ∧ u.pc = s.pc + imm) := by
  obtain ⟨-, htpc⟩ := branch_next ht
  obtain ⟨-, hupc⟩ := branch_next hu
  cases c with
  | false => exact .inl ⟨htpc, hupc⟩
  | true => exact .inr ⟨htpc, hupc⟩

end Sys2Proof.Machine

namespace Sys2Proof.Proofs

open Sys2Proof.Machine

/-- Settles O38: the row's mask fixes the opcode and funct3 0, which fix the decoding; the execution is
a branch on `condEq`, whose target and frame are `exec_branches`. -/
theorem beqBranchesWhenEqual : Obligations.BeqBranchesWhenEqual := by
  refine ⟨fun w h => ?decoding, fun rs1 rs2 imm s => ?execution⟩
  case decoding => exact decodeWord_of_mask10_b 0#3 h
  case execution => exact exec_branches rfl (s.condEq_iff rs1 rs2)

/-- Settles O39: as O38, with funct3 1 and the negated condition. -/
theorem bneBranchesWhenDifferent : Obligations.BneBranchesWhenDifferent := by
  refine ⟨fun w h => ?decoding, fun rs1 rs2 imm s => ?execution⟩
  case decoding => exact decodeWord_of_mask10_b 1#3 h
  case execution => exact exec_branches rfl (s.not_condEq_iff rs1 rs2)

/-- Settles O40: as O38, with funct3 4 and the comparison of the signed readings. -/
theorem bltBranchesWhenLessSigned : Obligations.BltBranchesWhenLessSigned := by
  refine ⟨fun w h => ?decoding, fun rs1 rs2 imm s => ?execution⟩
  case decoding => exact decodeWord_of_mask10_b 4#3 h
  case execution => exact exec_branches rfl (s.condLt_iff rs1 rs2)

/-- Settles O41: as O40, with funct3 5 and the negated condition, so that by `branch_not_opposite` one of
BGE and BLT is taken and the other is not. -/
theorem bgeBranchesExactlyWhenBltDoesNot : Obligations.BgeBranchesExactlyWhenBltDoesNot := by
  refine ⟨fun w h => ?decoding, fun rs1 rs2 imm s => ?execution,
    fun rs1 rs2 imm s t u ht hu => ?complement⟩
  case decoding => exact decodeWord_of_mask10_b 5#3 h
  case execution => exact exec_branches rfl (s.not_condLt_iff rs1 rs2)
  case complement => exact branch_not_opposite ht hu

end Sys2Proof.Proofs
end

section
/-! SUPPORT. What the step over an unsupported word returns (R141, R142, R157), the function codes with no
operation as R144 to R146 give them, and O45 and O46. -/

namespace Sys2Proof.Machine

/-- The step returned `Running` exactly when it left the halted flag false (R157). -/
theorem State.stepResult_running_iff (s : State) : s.stepResult = .running ↔ s.halted = false := by
  unfold State.stepResult
  cases s.halted <;> simp

/-- A skipped word leaves a running machine running (R141). -/
theorem Skipped.stepResult_running {d : Diag} {s t : State} (h : Skipped d s t)
    (hr : s.halted = false) : t.stepResult = .running := by
  obtain ⟨-, -, -, -, -, -, hhalted, -⟩ := h
  exact t.stepResult_running_iff.2 (hhalted.trans hr)

/-- A store word whose `funct3` is not that of SW has no operation (R145). -/
theorem unsupportedFunctWord_of_store {w : Word} (hop : fieldOpcode w = 0x23#7)
    (h3 : fieldFunct3 w ≠ 2#3) : unsupportedFunctWord w := by
  have others : ∀ f : BitVec 3, f ≠ 2#3 → f ∈ [0#3, 1#3, 3#3, 4#3, 5#3, 6#3, 7#3] := by decide
  exact .inr (.inr (.inl ⟨hop, others _ h3⟩))

end Sys2Proof.Machine

namespace Sys2Proof.Proofs

open Sys2Proof.Machine

/-- Settles O45: the step over the word skips it, and a skipped word leaves the machine running. -/
theorem unsupportedOpcodeIsANoOpWithADiagnostic :
    Obligations.UnsupportedOpcodeIsANoOpWithADiagnostic := by
  intro s w hr hw h
  obtain ⟨t, ht, hskip⟩ := step_unsupportedOpcodeWord hr hw h
  exact ⟨t, ht, hskip.stepResult_running hr, hskip⟩

/-- Settles O46: each of the three sets is part of set 3 of R65, whose words the step skips as in O45. -/
theorem unsupportedFunctionCodeIsANoOpWithADiagnostic :
    Obligations.UnsupportedFunctionCodeIsANoOpWithADiagnostic := by
  intro s w hr hw h
  have hset : unsupportedFunctWord w := by
    rcases h with register | ⟨hop, h3⟩ | branch
    · exact .inr (.inl register)
    · exact unsupportedFunctWord_of_store hop h3
    · exact .inr (.inr (.inr branch))
  obtain ⟨t, ht, hskip⟩ := step_unsupportedFunctWord hr hw hset
  exact ⟨t, ht, hskip.stepResult_running hr, hskip⟩

end Sys2Proof.Proofs
end

section
/-! SUPPORT. The Step Controller (spec/47_step_controller.md): the step over an HLT word (R152), when a
step or a clock edge leaves the machine halted (R150), where a step leaves the PC (R155), and O19, O42
and O44. -/

namespace Sys2Proof.Machine

/-! ### The halt (R150, R152) -/

/-- A running machine that fetches a word with opcode 0 halts, the fetch being all that it does. -/
theorem step_hltWord {s : State} {w : Word} (hr : s.halted = false) (hw : s.wordAt s.pc = some w)
    (hop : fieldOpcode w = 0#7) :
    step s = .next (s.beginStep.logAccess (.read s.pc)).halt := by
  rw [step_running hr hw, (decodeWord_eq_hlt_iff w).2 hop]
  rfl

/-- Only HLT sets the halted flag, and no instruction clears it. -/
theorem exec_halted_iff {i : Instr} {s t : State} (h : exec i s = .next t) :
    t.halted = true ↔ s.halted = true ∨ i = .hlt := by
  by_cases hi : i = .hlt
  · subst hi
    cases h
    simp
  · rcases exec_cases h with ⟨rd, v, -, rfl⟩ | ⟨p, -, rfl⟩ | ⟨rs1, rs2, imm, m, -, -, rfl⟩ |
      ⟨hlt, -⟩
    · simp [hi]
    · simp [hi]
    · simp [hi]
    · exact absurd hlt hi

/-- The same of a decoded word; an unsupported one leaves the flag alone. -/
theorem execDecoded_halted_iff {d : Decoded} {s t : State} (h : execDecoded d s = .next t) :
    t.halted = true ↔ s.halted = true ∨ d = .instr .hlt := by
  rcases execDecoded_cases h with ⟨i, rfl, hi⟩ | ⟨op, rfl, rfl⟩ | ⟨rec, rfl, rfl⟩
  · simp [exec_halted_iff hi]
  · simp
  · simp

/-- The one way into `Halted`: a step that fetches a word with opcode 0 (R150). -/
theorem step_halted_iff {s t : State} (h : step s = .next t) :
    t.halted = true ↔
      s.halted = true ∨ ∃ w, s.wordAt s.pc = some w ∧ fieldOpcode w = 0#7 := by
  rcases step_cases h with ⟨hhalted, rfl⟩ | ⟨hr, w, hw, hexec⟩
  · simp [hhalted]
  · simp [execDecoded_halted_iff hexec, hr, hw, decodeWord_eq_hlt_iff]

/-- Without reset, an edge keeps a halted machine halted: it steps or holds (R150, R160). -/
theorem clockEdge_keeps_halted {p : PortsIn} {s t : State} (h : clockEdge p s = .next t)
    (hs : s.halted = true) (hrst : p.rst = false) : t.halted = true := by
  cases hen : p.stepEn with
  | true =>
    have hstep : step s = .next t := by simpa [clockEdge, hrst, hen] using h
    exact (step_halted_iff hstep).2 (.inl hs)
  | false =>
    have hhold : s = t := by simpa [clockEdge, hrst, hen] using h
    exact hhold ▸ hs

/-! ### The PC after a step (R155) -/

/-- The condition of the branch with this `funct3`, on the values of its two registers (R130 to R133);
a code of no branch has none (R146). -/
abbrev BranchHolds (f3 : BitVec 3) (a b : Word) : Prop :=
  (f3 = 0#3 ∧ a = b) ∨ (f3 = 1#3 ∧ a ≠ b) ∨ (f3 = 4#3 ∧ a.toInt < b.toInt) ∨
    (f3 = 5#3 ∧ a.toInt ≥ b.toInt)

/-- A word has the opcode of the instruction it decodes to. -/
theorem fieldOpcode_of_decodeWord {w : Word} {i : Instr} (h : decodeWord w = .instr i) :
    fieldOpcode w = i.toRecord.opcode := by
  have hcodes := codesMatch_of_decodeWord h
  cases i with
  | hlt | lui | auipc => exact hcodes
  | _ => exact hcodes.1

/-- Every instruction but HLT and the branches advances the PC by 4. -/
theorem exec_pc_default {i : Instr} {s t : State} (h : exec i s = .next t)
    (hhlt : i.toRecord.opcode ≠ 0#7) (hbranch : i.toRecord.opcode ≠ 0x63#7) :
    t.pc = s.pc + 4#32 := by
  cases i with
  | hlt => exact absurd rfl hhlt
  | beq | bne | blt | bge => exact absurd rfl hbranch
  | sw =>
    obtain ⟨m, -, rfl⟩ := (execSw_next_iff _ _ _ _ _).1 h
    rfl
  | lui | auipc | addi | slli | add | sub | sll | slt | xor | srl | sra | or | and =>
    cases h
    simp

/-- A word that is neither HLT nor of the branch opcode advances the PC by 4, supported or not. -/
theorem execDecoded_pc_default {w : Word} {s t : State} (h : execDecoded (decodeWord w) s = .next t)
    (hhlt : fieldOpcode w ≠ 0#7) (hbranch : fieldOpcode w ≠ 0x63#7) : t.pc = s.pc + 4#32 := by
  rcases execDecoded_cases h with ⟨i, hd, hi⟩ | ⟨op, -, rfl⟩ | ⟨rec, -, rfl⟩
  · rw [fieldOpcode_of_decodeWord hd] at hhlt hbranch
    exact exec_pc_default hi hhlt hbranch
  · rfl
  · rfl

/-- A record of the branch opcode goes to its target if its condition holds, and to the next word
otherwise, as it does when its function code is that of no branch (R134, R146). -/
theorem dispatchB_pc {d : DecodedInstruction} {s t : State}
    (h : execDecoded (dispatchB d) s = .next t) :
    t.pc = if BranchHolds d.funct3 (s.x d.rs1) (s.x d.rs2) then s.pc + d.immediate
      else s.pc + 4#32 := by
  have target {c : Bool} (hb : s.branch c d.immediate = .next t)
      (hc : c = true ↔ BranchHolds d.funct3 (s.x d.rs1) (s.x d.rs2)) :=
    (branch_next hb).2.trans (if_congr hc rfl rfl)
  rw [dispatchB] at h
  split_ifs at h with beq bne blt bge
  · exact target h ((s.condEq_iff _ _).trans (by simp [BranchHolds, beq]))
  · exact target h ((s.not_condEq_iff _ _).trans (by simp [BranchHolds, bne]))
  · exact target h ((s.condLt_iff _ _).trans (by simp [BranchHolds, blt]))
  · exact target h ((s.not_condLt_iff _ _).trans (by simp [BranchHolds, bge]))
  · cases h
    simp [BranchHolds, beq, bne, blt, bge]

/-- Where the step over any word but HLT leaves the PC: at the target of a branch whose condition holds,
else at the next word. -/
theorem step_pc {s t : State} {w : Word} (hr : s.halted = false) (hw : s.wordAt s.pc = some w)
    (h : step s = .next t) (hop : fieldOpcode w ≠ 0#7) :
    t.pc = if fieldOpcode w = 0x63#7 ∧
        BranchHolds (fieldFunct3 w) (s.x (fieldRs1 w)) (s.x (fieldRs2 w))
      then s.pc + immB w else s.pc + 4#32 := by
  have hexec := (step_running hr hw).symm.trans h
  by_cases hbranch : fieldOpcode w = 0x63#7
  · have hd : decodeWord w = dispatchB
        ⟨0x63#7, 0#5, fieldRs1 w, fieldRs2 w, fieldFunct3 w, 0#7, immB w⟩ := by
      rw [decodeWord, decode_b hbranch]
      rfl
    rw [hd] at hexec
    exact (dispatchB_pc hexec).trans (if_congr (and_iff_right hbranch).symm rfl rfl)
  · have hpc := execDecoded_pc_default hexec hop hbranch
    exact hpc.trans (if_neg fun taken => hbranch taken.1).symm

end Sys2Proof.Machine

namespace Sys2Proof.Proofs

open Sys2Proof.Machine

/-- Settles O19: a step by `step_halted_iff`; an edge without reset is a step or holds the state, and
both keep a halted machine halted. -/
theorem onlyHltHaltsAndOnlyResetResumes : Obligations.OnlyHltHaltsAndOnlyResetResumes := by
  refine ⟨State.afterReset_halted, fun s t h => step_halted_iff h, fun p s t h hs ht => ?_⟩
  by_contra hrst
  simp [clockEdge_keeps_halted h hs (Bool.eq_false_of_not_eq_true hrst)] at ht

/-- Settles O42: the execution is `halt`, and the step over a word with opcode 0 is `halt` after the
fetch is recorded; `halt` sets the one flag. -/
theorem hltHaltsAndChangesNothingElse : Obligations.HltHaltsAndChangesNothingElse := by
  refine ⟨fun s => ⟨s.halt, rfl, ?execution⟩,
    fun s w hr hw h => ⟨_, step_hltWord hr hw ((mask7_iff w 0#7).1 h), ?step⟩⟩
  case execution => simp [RegsKept, MemKept, OutputsKept]
  case step => simp [RegsKept, MemKept, State.stepResult]

/-- Settles O44: the step over HLT keeps the PC, any other is `step_pc`, read as natural numbers. -/
theorem defaultAdvanceUnlessABranchIsTaken : Obligations.DefaultAdvanceUnlessABranchIsTaken := by
  intro s t hr h w hw
  refine ⟨fun hop => ?halt, fun hop => ?execute⟩
  case halt =>
    rw [step_hltWord hr hw hop] at h
    cases h
    rfl
  case execute =>
    rw [step_pc hr hw h hop, apply_ite BitVec.toNat, BitVec.toNat_add, BitVec.toNat_add]
    rfl

end Sys2Proof.Proofs
end

section
/-! SUPPORT. The round trips between words and decoded records (R70, R95): each class's encoder gives the
decoder the record it was made of, and makes of a word's own fields the word again; O2 and O3. -/

namespace Sys2Proof

/-! ### Decode of encode -/

section
variable {imm : Word}

/-- The two fields of an S immediate, put together and extended, are the immediate (R60). -/
theorem immS_encS (op : BitVec 7) (f3 : BitVec 3) (rs1 rs2 : RegIdx) (h : fitsSigned12 imm = true) :
    immS (encS op f3 rs1 rs2 imm) = imm := by
  obtain ⟨-, -, -, -, hhigh, hlow⟩ := encS_fields op f3 rs1 rs2 imm
  rw [immS, hhigh, hlow, BitVec.extractLsb'_append_extractLsb'_eq_extractLsb' (by rfl), sext12_extract h]

/-- An even number has bit 0 clear, which is what the B-type fields leave out (R61). -/
theorem extract_bit0_of_fitsBranch (h : fitsBranch imm = true) : 0#1 = imm.extractLsb' 0 1 := by
  simp only [fitsBranch, Bool.and_eq_true, decide_eq_true_eq, BitVec.toInt_eq_toNat_cond] at h
  obtain ⟨-, heven⟩ := h
  apply BitVec.eq_of_toNat_eq
  rw [BitVec.extractLsb'_toNat, Nat.shiftRight_zero, BitVec.toNat_ofNat]
  split_ifs at heven <;> omega

/-- The four fields of a B immediate, put together and extended, are the immediate (R61). -/
theorem immB_encB (op : BitVec 7) (f3 : BitVec 3) (rs1 rs2 : RegIdx) (h : fitsBranch imm = true) :
    immB (encB op f3 rs1 rs2 imm) = imm := by
  obtain ⟨-, -, -, -, h12, h11, h10_5, h4_1⟩ := encB_fields op f3 rs1 rs2 imm
  rw [immB, h12, h11, h10_5, h4_1, extract_bit0_of_fitsBranch h]
  iterate 4 rw [BitVec.extractLsb'_append_extractLsb'_eq_extractLsb' (by rfl)]
  exact sext13_extract h

theorem decode_encI (rd rs1 : RegIdx) {f3 : BitVec 3} (h3 : f3 ≠ 1#3) (h : fitsSigned12 imm = true) :
    decode (encI 0x13#7 rd f3 rs1 imm) = ⟨0x13#7, rd, rs1, 0#5, f3, 0#7, imm⟩ := by
  obtain ⟨hop, hrd, hf3, hrs1, himm⟩ := encI_fields 0x13#7 rd f3 rs1 imm
  rw [decode_i hop (hf3.trans_ne h3), hrd, hf3, hrs1, immI, himm, sext12_extract h]

theorem decode_encIsh (rd rs1 : RegIdx) (f7 : BitVec 7) (h : fitsShamt imm = true) :
    decode (encIsh 0x13#7 rd rs1 imm f7) = ⟨0x13#7, rd, rs1, 0#5, 1#3, f7, imm⟩ := by
  obtain ⟨hop, hrd, hf3, hrs1, himm, hf7⟩ := encIsh_fields 0x13#7 rd rs1 imm f7
  rw [decode_ishift hop hf3, hrd, hrs1, hf7, immShamt, himm, shamt_extract h]

theorem decode_encR (rd : RegIdx) (f3 : BitVec 3) (rs1 rs2 : RegIdx) (f7 : BitVec 7) :
    decode (encR 0x33#7 rd f3 rs1 rs2 f7) = ⟨0x33#7, rd, rs1, rs2, f3, f7, 0#32⟩ := by
  obtain ⟨hop, hrd, hf3, hrs1, hrs2, hf7⟩ := encR_fields 0x33#7 rd f3 rs1 rs2 f7
  rw [decode_r hop, hrd, hf3, hrs1, hrs2, hf7]

theorem decode_encS (f3 : BitVec 3) (rs1 rs2 : RegIdx) (h : fitsSigned12 imm = true) :
    decode (encS 0x23#7 f3 rs1 rs2 imm) = ⟨0x23#7, 0#5, rs1, rs2, f3, 0#7, imm⟩ := by
  obtain ⟨hop, hf3, hrs1, hrs2, -, -⟩ := encS_fields 0x23#7 f3 rs1 rs2 imm
  rw [decode_s hop, hf3, hrs1, hrs2, immS_encS _ _ _ _ h]

theorem decode_encB (f3 : BitVec 3) (rs1 rs2 : RegIdx) (h : fitsBranch imm = true) :
    decode (encB 0x63#7 f3 rs1 rs2 imm) = ⟨0x63#7, 0#5, rs1, rs2, f3, 0#7, imm⟩ := by
  obtain ⟨hop, hf3, hrs1, hrs2, -⟩ := encB_fields 0x63#7 f3 rs1 rs2 imm
  rw [decode_b hop, hf3, hrs1, hrs2, immB_encB _ _ _ _ h]

end

/-- The decoder reads the record of a well-formed instruction back from the instruction's word. -/
theorem decode_encode {i : Instr} (h : i.wellFormed = true) : decode (encode i) = i.toRecord := by
  cases i with
  | hlt => decide
  | lui rd imm =>
    obtain ⟨hop, hrd, himm⟩ := encU_fields 0x37#7 rd imm
    refine (decode_lui hop).trans ?_
    rw [hrd, himm, (fitsUpper_iff imm).1 h]
    rfl
  | auipc rd imm =>
    obtain ⟨hop, hrd, himm⟩ := encU_fields 0x17#7 rd imm
    refine (decode_auipc hop).trans ?_
    rw [hrd, himm, (fitsUpper_iff imm).1 h]
    rfl
  | addi rd rs1 imm => exact decode_encI rd rs1 (f3 := 0#3) (by decide) h
  | slli rd rs1 imm => exact decode_encIsh rd rs1 0x00#7 h
  | add rd rs1 rs2 | sub rd rs1 rs2 | sll rd rs1 rs2 | slt rd rs1 rs2 | xor rd rs1 rs2
  | srl rd rs1 rs2 | sra rd rs1 rs2 | or rd rs1 rs2 | and rd rs1 rs2 => exact decode_encR rd _ rs1 rs2 _
  | sw rs1 rs2 imm => exact decode_encS 2#3 rs1 rs2 h
  | beq rs1 rs2 imm | bne rs1 rs2 imm | blt rs1 rs2 imm | bge rs1 rs2 imm =>
    exact decode_encB _ rs1 rs2 h

/-- The record of an instruction is looked up as that instruction (R156). -/
theorem dispatch_toRecord (i : Instr) : dispatch i.toRecord = .instr i := by
  cases i <;> rfl

/-! ### A word from its fields

Each encoding class cuts a word in its own way; the pieces, put together again, are the word. -/

theorem join_fields_r (w : Word) :
    fieldFunct7 w ++ fieldRs2 w ++ fieldRs1 w ++ fieldFunct3 w ++ fieldRd w ++ fieldOpcode w = w := by
  unfold fieldFunct7 fieldRs2 fieldRs1 fieldFunct3 fieldRd fieldOpcode
  iterate 5 rw [BitVec.extractLsb'_append_extractLsb'_eq_extractLsb' (by rfl)]
  exact BitVec.extractLsb'_eq_self

theorem join_fields_i (w : Word) :
    w.extractLsb' 20 12 ++ fieldRs1 w ++ fieldFunct3 w ++ fieldRd w ++ fieldOpcode w = w := by
  unfold fieldRs1 fieldFunct3 fieldRd fieldOpcode
  iterate 4 rw [BitVec.extractLsb'_append_extractLsb'_eq_extractLsb' (by rfl)]
  exact BitVec.extractLsb'_eq_self

theorem join_fields_b (w : Word) :
    w.extractLsb' 31 1 ++ w.extractLsb' 25 6 ++ fieldRs2 w ++ fieldRs1 w ++ fieldFunct3 w ++
      w.extractLsb' 8 4 ++ w.extractLsb' 7 1 ++ fieldOpcode w = w := by
  unfold fieldRs2 fieldRs1 fieldFunct3 fieldOpcode
  iterate 7 rw [BitVec.extractLsb'_append_extractLsb'_eq_extractLsb' (by rfl)]
  exact BitVec.extractLsb'_eq_self

theorem join_fields_u (w : Word) : w.extractLsb' 12 20 ++ fieldRd w ++ fieldOpcode w = w := by
  unfold fieldRd fieldOpcode
  iterate 2 rw [BitVec.extractLsb'_append_extractLsb'_eq_extractLsb' (by rfl)]
  exact BitVec.extractLsb'_eq_self

/-- Two words with the same six fields are the same word. -/
theorem eq_of_fields {v w : Word} (hop : fieldOpcode v = fieldOpcode w) (hrd : fieldRd v = fieldRd w)
    (h3 : fieldFunct3 v = fieldFunct3 w) (hrs1 : fieldRs1 v = fieldRs1 w)
    (hrs2 : fieldRs2 v = fieldRs2 w) (h7 : fieldFunct7 v = fieldFunct7 w) : v = w := by
  rw [← join_fields_r v, hop, hrd, h3, hrs1, hrs2, h7, join_fields_r]

/-! ### The fields that an immediate was assembled from (R58 to R62) -/

theorem immI_field (w : Word) : (immI w).extractLsb' 0 12 = w.extractLsb' 20 12 := by
  refine BitVec.eq_of_getLsbD_eq fun k hk => ?_
  have hk32 : 0 + k < 32 := by omega
  simp only [BitVec.getLsbD_extractLsb', immI_getLsbD w hk32]
  simp [hk]

theorem immShamt_field (w : Word) : (immShamt w).extractLsb' 0 5 = w.extractLsb' 20 5 := by
  refine BitVec.eq_of_getLsbD_eq fun k hk => ?_
  have hk32 : 0 + k < 32 := by omega
  simp only [BitVec.getLsbD_extractLsb', immShamt_getLsbD w hk32]
  simp [hk]

theorem immU_field (w : Word) : (immU w).extractLsb' 12 20 = w.extractLsb' 12 20 := by
  refine BitVec.eq_of_getLsbD_eq fun k hk => ?_
  have hk32 : 12 + k < 32 := by omega
  simp [immU_eq_shift, hk, hk32]

theorem immS_fields (w : Word) :
    (immS w).extractLsb' 5 7 = w.extractLsb' 25 7 ∧ (immS w).extractLsb' 0 5 = w.extractLsb' 7 5 := by
  constructor
  · refine BitVec.eq_of_getLsbD_eq fun k hk => ?_
    have hk32 : 5 + k < 32 := by omega
    simp only [BitVec.getLsbD_extractLsb', immS_getLsbD w hk32]
    interval_cases k <;> simp
  · refine BitVec.eq_of_getLsbD_eq fun k hk => ?_
    have hk32 : 0 + k < 32 := by omega
    simp only [BitVec.getLsbD_extractLsb', immS_getLsbD w hk32]
    interval_cases k <;> simp

theorem immB_fields (w : Word) :
    (immB w).extractLsb' 12 1 = w.extractLsb' 31 1 ∧ (immB w).extractLsb' 11 1 = w.extractLsb' 7 1 ∧
    (immB w).extractLsb' 5 6 = w.extractLsb' 25 6 ∧ (immB w).extractLsb' 1 4 = w.extractLsb' 8 4 := by
  refine ⟨?_, ?_, ?_, ?_⟩
  all_goals
    refine BitVec.eq_of_getLsbD_eq fun k hk => ?_
    rw [BitVec.getLsbD_extractLsb', immB_getLsbD w (by omega)]
    interval_cases k <;> simp

/-! ### Encode of decode -/

section
variable {w : Word} {op : BitVec 7}

theorem encR_of_fields (h : fieldOpcode w = op) :
    encR op (fieldRd w) (fieldFunct3 w) (fieldRs1 w) (fieldRs2 w) (fieldFunct7 w) = w := by
  obtain ⟨hop, hrd, h3, hrs1, hrs2, h7⟩ := encR_fields op (fieldRd w) (fieldFunct3 w) (fieldRs1 w)
    (fieldRs2 w) (fieldFunct7 w)
  exact eq_of_fields (hop.trans h.symm) hrd h3 hrs1 hrs2 h7

theorem encI_of_fields (h : fieldOpcode w = op) :
    encI op (fieldRd w) (fieldFunct3 w) (fieldRs1 w) (immI w) = w := by
  obtain ⟨hop, hrd, h3, hrs1, himm⟩ := encI_fields op (fieldRd w) (fieldFunct3 w) (fieldRs1 w) (immI w)
  rw [← join_fields_i (encI _ _ _ _ _), hop, hrd, h3, hrs1, himm, immI_field, ← h, join_fields_i]

theorem encIsh_of_fields (h : fieldOpcode w = op) (h1 : fieldFunct3 w = 1#3) :
    encIsh op (fieldRd w) (fieldRs1 w) (immShamt w) (fieldFunct7 w) = w := by
  obtain ⟨hop, hrd, h3, hrs1, himm, h7⟩ := encIsh_fields op (fieldRd w) (fieldRs1 w) (immShamt w)
    (fieldFunct7 w)
  exact eq_of_fields (hop.trans h.symm) hrd (h3.trans h1.symm) hrs1 (himm.trans (immShamt_field w)) h7

theorem encS_of_fields (h : fieldOpcode w = op) :
    encS op (fieldFunct3 w) (fieldRs1 w) (fieldRs2 w) (immS w) = w := by
  obtain ⟨hop, h3, hrs1, hrs2, hhigh, hlow⟩ := encS_fields op (fieldFunct3 w) (fieldRs1 w)
    (fieldRs2 w) (immS w)
  obtain ⟨h7, hrd⟩ := immS_fields w
  exact eq_of_fields (hop.trans h.symm) (hlow.trans hrd) h3 hrs1 hrs2 (hhigh.trans h7)

theorem encB_of_fields (h : fieldOpcode w = op) :
    encB op (fieldFunct3 w) (fieldRs1 w) (fieldRs2 w) (immB w) = w := by
  obtain ⟨hop, h3, hrs1, hrs2, h12, h11, h10_5, h4_1⟩ := encB_fields op (fieldFunct3 w) (fieldRs1 w)
    (fieldRs2 w) (immB w)
  obtain ⟨w31, w7, w25, w8⟩ := immB_fields w
  rw [← join_fields_b (encB _ _ _ _ _), hop, h3, hrs1, hrs2, h12, h11, h10_5, h4_1, w31, w7, w25, w8,
    ← h, join_fields_b]

theorem encU_of_fields (h : fieldOpcode w = op) : encU op (fieldRd w) (immU w) = w := by
  obtain ⟨hop, hrd, himm⟩ := encU_fields op (fieldRd w) (immU w)
  have hupper : (encU op (fieldRd w) (immU w)).extractLsb' 12 20 = w.extractLsb' 12 20 := by
    rw [← immU_field (encU _ _ _), himm]
    exact (immU_field (immU w)).trans (immU_field w)
  rw [← join_fields_u (encU _ _ _), hop, hrd, hupper, ← h, join_fields_u]

end

/-- The opcodes whose decoded record keeps the whole word (40_decoder.md section 4). -/
abbrev RecognisedOpcode (op : BitVec 7) : Prop := op ∈ [0x37#7, 0x17#7, 0x13#7, 0x33#7, 0x23#7, 0x63#7]

/-- Each class's record holds all that its encoder makes the word of. -/
theorem encodeRecord_decode {w : Word} (h : RecognisedOpcode (fieldOpcode w)) :
    encodeRecord (decode w) = w := by
  simp only [RecognisedOpcode, List.mem_cons, List.not_mem_nil, or_false] at h
  rcases h with hop | hop | hop | hop | hop | hop
  · rw [decode_lui hop]
    exact encU_of_fields hop
  · rw [decode_auipc hop]
    exact encU_of_fields hop
  · by_cases h1 : fieldFunct3 w = 1#3
    · rw [decode_ishift hop h1]
      exact encIsh_of_fields hop h1
    · rw [decode_i hop h1]
      exact (if_neg h1).trans (encI_of_fields hop)
  · rw [decode_r hop]
    exact encR_of_fields hop
  · rw [decode_s hop]
    exact encS_of_fields hop
  · rw [decode_b hop]
    exact encB_of_fields hop

/-- So the record determines the word. -/
theorem decode_injective {v w : Word} (h : RecognisedOpcode (fieldOpcode w))
    (hvw : decode v = decode w) : v = w := by
  have hop : fieldOpcode v = fieldOpcode w := by rw [← decode_opcode, hvw, decode_opcode]
  calc v = encodeRecord (decode v) := (encodeRecord_decode (hop ▸ h)).symm
    _ = encodeRecord (decode w) := by rw [hvw]
    _ = w := encodeRecord_decode h

/-- Of any other word, HLT included, the record keeps the opcode alone (R82, R90). -/
theorem decode_unrecognised {w : Word} (h : ¬ RecognisedOpcode (fieldOpcode w)) :
    decode w = .bare (fieldOpcode w) := by
  by_cases h0 : fieldOpcode w = 0x00#7
  · rw [decode_hlt h0, h0]
  · refine decode_x ?_
    simp only [RecognisedOpcode, List.mem_cons, List.not_mem_nil, or_false, not_or] at h
    obtain ⟨hlui, hauipc, hi, hr, hs, hb⟩ := h
    simp [classOf, h0, hlui, hauipc, hi, hr, hs, hb]

end Sys2Proof

namespace Sys2Proof.Proofs

/-- Settles O2: decoding the encoded word gives the instruction's record, which is looked up as the
instruction. -/
theorem decodingAnEncodedInstructionGivesItBack :
    Obligations.DecodingAnEncodedInstructionGivesItBack := by
  intro i h
  rw [decodeWord, decode_encode h, dispatch_toRecord]

/-- Settles O3: one lemma per clause, the round trip of `encodeRecord_decode` giving the injectivity. -/
theorem reencodingADecodedWordGivesItBack : Obligations.ReencodingADecodedWordGivesItBack := by
  refine ⟨fun w h => ⟨encodeRecord_decode h, fun v => decode_injective h⟩, fun v w h hop => ?_⟩
  rw [decode_unrecognised h, decode_unrecognised (hop ▸ h), hop]

end Sys2Proof.Proofs
end

section
/-! SUPPORT. What a step with a next state did, word by word, and what it keeps: the configuration, the
status flags, the hard-wired register 0 and the canonical form, so the invariant (R12, R15, R35); the
clock edge by its inputs (R160); and O12, O13, O14, O15, O18 and O55. -/

namespace Sys2Proof.Machine

/-! ### The step by the word it fetched -/

/-- The state an instruction is executed in: the step begun and the fetch on the list of uses. -/
abbrev State.fetched (s : State) : State := s.beginStep.logAccess (.read s.pc)

/-- A step with a next state found the machine halted, or executed an instruction, or skipped a word that
is none with that word's diagnostic. -/
theorem step_next_cases {s t : State} (h : step s = .next t) :
    (s.halted = true ∧ t = s.beginStep) ∨
    (s.halted = false ∧ ∃ w i, s.wordAt s.pc = some w ∧ decodeWord w = .instr i ∧
      exec i s.fetched = .next t) ∨
    (s.halted = false ∧ ∃ w, s.wordAt s.pc = some w ∧ (∀ i, decodeWord w ≠ .instr i) ∧
      t = s.fetched.skipWith (diagOf (decodeWord w))) := by
  rcases step_cases h with halted | ⟨hr, w, hw, hexec⟩
  · exact .inl halted
  · rcases execDecoded_cases hexec with ⟨i, hd, hi⟩ | ⟨op, hd, rfl⟩ | ⟨rec, hd, rfl⟩
    · exact .inr (.inl ⟨hr, w, i, hw, hd, hi⟩)
    · exact .inr (.inr ⟨hr, w, hw, by simp [hd], by rw [hd]; rfl⟩)
    · exact .inr (.inr ⟨hr, w, hw, by simp [hd], by rw [hd]; rfl⟩)

/-! ### The configuration and the flags -/

theorem exec_cfg_statusFlags {i : Instr} {s t : State} (h : exec i s = .next t) :
    t.cfg = s.cfg ∧ t.statusFlags = s.statusFlags := by
  rcases exec_cases h with ⟨rd, v, -, rfl⟩ | ⟨p, -, rfl⟩ | ⟨rs1, rs2, imm, m, -, -, rfl⟩ | ⟨-, rfl⟩
  all_goals simp

theorem step_cfg_statusFlags {s t : State} (h : step s = .next t) :
    t.cfg = s.cfg ∧ t.statusFlags = s.statusFlags := by
  rcases step_next_cases h with ⟨-, rfl⟩ | ⟨-, w, i, -, -, hi⟩ | ⟨-, w, -, -, rfl⟩
  · exact ⟨rfl, rfl⟩
  · exact exec_cfg_statusFlags (s := s.fetched) hi
  · exact ⟨rfl, rfl⟩

/-! ### Register 0 and the memory -/

/-- No write reaches a hard-wired register 0 (R12). -/
theorem State.setX_stored_zero {s : State} (hx : s.cfg.x0Hardwired = true) (i : RegIdx) (v : Word) :
    (s.setX i v).stored 0#5 = s.stored 0#5 := by
  refine s.setX_stored_kept v ?_
  by_cases hi : i = 0#5
  · exact .inr ((s.isZeroReg_iff i).2 ⟨hx, hi⟩)
  · exact .inl fun h => hi h.symm

theorem exec_keeps_inv {i : Instr} {s t : State} (hs : s.Inv) (h : exec i s = .next t) : t.Inv := by
  obtain ⟨hmem, hzero, hflags⟩ := hs
  rcases exec_cases h with ⟨rd, v, -, rfl⟩ | ⟨p, -, rfl⟩ | ⟨rs1, rs2, imm, m, -, hm, rfl⟩ | ⟨-, rfl⟩
  · have hx : s.cfg.x0Hardwired = true → (s.nextOf.setX rd v).stored 0#5 = 0#32 := fun hx =>
      (State.setX_stored_zero (s := s.nextOf) hx rd v).trans (hzero hx)
    simpa [State.Inv] using ⟨hmem, hx, hflags⟩
  · exact ⟨hmem, hzero, hflags⟩
  · exact ⟨writePort_wf hmem hm, hzero, hflags⟩
  · exact ⟨hmem, hzero, hflags⟩

/-- The invariant does not speak of the PC and the outputs, which is all that a fetch, a skipped word and
the step of a halted machine change. -/
theorem step_keeps_inv {s t : State} (hs : s.Inv) (h : step s = .next t) : t.Inv := by
  rcases step_next_cases h with ⟨-, rfl⟩ | ⟨-, w, i, -, -, hi⟩ | ⟨-, w, -, -, rfl⟩
  · exact hs
  · exact exec_keeps_inv (s := s.fetched) hs hi
  · exact hs

/-- The base case: the registers after reset are `INIT_REGS`, register 0 aside (R23). -/
theorem afterReset_inv (c : Config) {m : Memory} (hm : m.wf) : (State.afterReset c m).Inv := by
  refine ⟨hm, fun hx => ?_, List.length_replicate⟩
  rw [State.afterReset_stored]
  exact if_pos ⟨hx, rfl⟩

theorem exec_mem_kept {i : Instr} {s t : State} (h : exec i s = .next t)
    (hi : ∀ rs1 rs2 imm, i ≠ .sw rs1 rs2 imm) : t.mem = s.mem := by
  rcases exec_cases h with ⟨rd, v, -, rfl⟩ | ⟨p, -, rfl⟩ | ⟨rs1, rs2, imm, m, hsw, -, -⟩ | ⟨-, rfl⟩
  · simp
  · rfl
  · exact absurd hsw (hi rs1 rs2 imm)
  · rfl

/-- Only an SW writes the memory (R186). -/
theorem step_mem_kept {s t : State} (h : step s = .next t)
    (hs : s.halted = true ∨
      ∀ w rs1 rs2 imm, s.wordAt s.pc = some w → decodeWord w ≠ .instr (.sw rs1 rs2 imm)) :
    t.mem = s.mem := by
  rcases step_next_cases h with ⟨-, rfl⟩ | ⟨hr, w, i, hw, hd, hi⟩ | ⟨-, w, -, -, rfl⟩
  · rfl
  · have hnot := hs.resolve_left (by simp [hr])
    refine exec_mem_kept (s := s.fetched) hi ?_
    rintro rs1 rs2 imm rfl
    exact hnot w rs1 rs2 imm hw hd
  · rfl

/-! ### The clock edge (R160) -/

section
variable {p : PortsIn} (s : State)

theorem clockEdge_reset (hrst : p.rst = true) :
    clockEdge p s = .next (State.afterReset s.cfg s.mem) := by
  simp [clockEdge, hrst]

theorem clockEdge_step (hrst : p.rst = false) (hen : p.stepEn = true) : clockEdge p s = step s := by
  simp [clockEdge, hrst, hen]

theorem clockEdge_hold (hrst : p.rst = false) (hen : p.stepEn = false) :
    clockEdge p s = .next s := by
  simp [clockEdge, hrst, hen]

end

/-- Each of the three things an edge can do keeps the invariant. -/
theorem clockEdge_keeps_inv {p : PortsIn} {s t : State} (hs : s.Inv)
    (h : clockEdge p s = .next t) : t.Inv := by
  cases hrst : p.rst with
  | true =>
    rw [clockEdge_reset s hrst] at h
    cases h
    obtain ⟨hmem, -, -⟩ := hs
    exact afterReset_inv s.cfg hmem
  | false =>
    cases hen : p.stepEn with
    | true =>
      rw [clockEdge_step s hrst hen] at h
      exact step_keeps_inv hs h
    | false =>
      rw [clockEdge_hold s hrst hen] at h
      cases h
      exact hs

end Sys2Proof.Machine

namespace Sys2Proof.Proofs

open Sys2Proof.Machine

/-- Settles O12: the edge with reset leaves `afterReset` over the same memory; a step writes it only by
an SW. -/
theorem resetDoesNotTouchTheMemory : Obligations.ResetDoesNotTouchTheMemory :=
  ⟨fun _ s hrst => ⟨_, clockEdge_reset s hrst, rfl⟩, State.afterReset_mem,
    fun _ _ => step_mem_kept⟩

/-- Settles O13: `afterReset_inv`, at the defaults over the empty memory. -/
theorem invariantHoldsAfterReset : Obligations.InvariantHoldsAfterReset :=
  ⟨fun c _ => afterReset_inv c, afterReset_inv Config.default Memory.wf_nil⟩

/-- Settles O14, by the cases of the step and, for an executed instruction, of `exec`. -/
theorem everyStepKeepsTheInvariant : Obligations.EveryStepKeepsTheInvariant :=
  fun _ _ hs h => ⟨step_keeps_inv hs h, (step_cfg_statusFlags h).1⟩

/-- Settles O15: the two cases are those of `isZeroReg`. -/
theorem registerZeroFollowsTheParameter : Obligations.RegisterZeroFollowsTheParameter := by
  refine fun s i v => ⟨fun h => ?hardwired, fun h => ?stored⟩
  case hardwired =>
    have hz := (s.isZeroReg_iff i).2 h
    exact ⟨if_pos hz, s.setX_zero v hz⟩
  case stored =>
    have hz : s.isZeroReg i = false := by rwa [← Bool.not_eq_true, s.isZeroReg_iff]
    refine ⟨by simp [State.x, hz], by simp [State.setX_x_same, hz], fun r hr => ?_, ?_⟩
    · exact s.setX_stored_kept v (.inl hr)
    · simp

/-- Settles O18: the step of a halted machine clears both outputs, and a running one fetches from a state
in which they are cleared. -/
theorem stepOutputsAreNotReadByALaterStep : Obligations.StepOutputsAreNotReadByALaterStep := by
  intro s d as
  have hbegin : State.beginStep { s with diag := d, accesses := as } = s.beginStep := rfl
  simp only [step, stepHalted, State.fetch, hbegin]

/-- Settles O55: one lemma per case of the edge, each of which keeps the invariant. -/
theorem aClockEdgeResetsStepsOrHolds : Obligations.AClockEdgeResetsStepsOrHolds :=
  ⟨fun _ s => ⟨clockEdge_reset s, clockEdge_step s, clockEdge_hold s⟩,
    fun _ _ _ => clockEdge_keeps_inv⟩

end Sys2Proof.Proofs
end

section
/-! SUPPORT. What the words of a row decode to, and that it is well-formed (R58 to R64); the record of the
immediate classes (R85 to R90); SLLI and SRA; and O1, O4, O5, O10, O27 and O34. -/

namespace Sys2Proof

/-! ### Words of one row -/

theorem decodeWord_slli {w : Word} (hop : fieldOpcode w = 0x13#7) (h3 : fieldFunct3 w = 1#3)
    (h7 : fieldFunct7 w = 0x00#7) :
    decodeWord w = .instr (.slli (fieldRd w) (fieldRs1 w) (immShamt w)) := by
  rw [decodeWord, decode_ishift hop h3, h7]
  rfl

theorem decodeWord_sw {w : Word} (hop : fieldOpcode w = 0x23#7) (h3 : fieldFunct3 w = 2#3) :
    decodeWord w = .instr (.sw (fieldRs1 w) (fieldRs2 w) (immS w)) := by
  rw [decodeWord, decode_s hop, h3]
  rfl

/-- A word decodes to one instruction at most. -/
theorem decodeWord_instr_inj {w : Word} {i j : Instr} (hi : decodeWord w = .instr i)
    (hj : decodeWord w = .instr j) : i = j :=
  Decoded.instr.inj (hi.symm.trans hj)

/-- A decoded instruction's row matches the word. -/
theorem mask_of_decodeWord {w : Word} {i : Instr} (h : decodeWord w = .instr i) :
    w &&& i.row.mask = i.row.matchWord :=
  (row_match_iff_codesMatch i w).2 (Machine.codesMatch_of_decodeWord h)

/-! ### The immediates of a word are well-formed -/

theorem fitsUpper_immU (w : Word) : fitsUpper (immU w) = true := by
  rw [fitsUpper, immU_toNat, decide_eq_true_iff]
  omega

theorem fitsShamt_immShamt (w : Word) : fitsShamt (immShamt w) = true := by
  rw [fitsShamt, immShamt_toNat, decide_eq_true_iff]
  omega

theorem fitsBranch_immB (w : Word) : fitsBranch (immB w) = true :=
  fitsBranch_sext _ (by rw [BitVec.getLsbD_append]; rfl)

/-- The immediate of a decoded instruction is the one that the class of its row assembles. -/
theorem wellFormed_of_decodeWord {w : Word} {i : Instr} (h : decodeWord w = .instr i) :
    i.wellFormed = true := by
  have hcodes := Machine.codesMatch_of_decodeWord h
  cases i with
  | hlt | add | sub | sll | slt | xor | srl | sra | or | and => rfl
  | lui =>
    rw [decodeWord_lui hcodes] at h
    cases h
    exact fitsUpper_immU w
  | auipc =>
    rw [decodeWord_auipc hcodes] at h
    cases h
    exact fitsUpper_immU w
  | addi =>
    obtain ⟨hop, h3⟩ := hcodes
    rw [decodeWord_addi hop h3] at h
    cases h
    exact fitsSigned12_sext _
  | slli =>
    obtain ⟨hop, h3, h7⟩ := hcodes
    rw [decodeWord_slli hop h3 h7] at h
    cases h
    exact fitsShamt_immShamt w
  | sw =>
    obtain ⟨hop, h3⟩ := hcodes
    rw [decodeWord_sw hop h3] at h
    cases h
    exact fitsSigned12_sext _
  | beq | bne | blt | bge =>
    obtain ⟨hop, h3⟩ := hcodes
    rw [decodeWord, decode_b hop, h3] at h
    simp only [Instr.toRecord] at h
    cases h
    exact fitsBranch_immB w

/-! ### The table -/

/-- The rows of the table are those of the instructions (R64). -/
theorem mem_opcodeTable_iff (r : OpcodeRow) : r ∈ opcodeTable ↔ ∃ i : Instr, i.row = r := by
  have hhead : r ∈ opcodeTable ↔ r = Instr.hlt.row ∨ r ∈ opcodeTable.tail := List.mem_cons
  rw [hhead, mem_opcodeTable_tail_iff]
  constructor
  · rintro (rfl | ⟨i, -, hi⟩)
    · exact ⟨.hlt, rfl⟩
    · exact ⟨i, hi⟩
  · rintro ⟨i, rfl⟩
    by_cases hi : i = .hlt
    · exact .inl (hi ▸ rfl)
    · exact .inr ⟨i, hi, rfl⟩

/-- A word matches a row of the table exactly when it decodes to an instruction of that row. -/
theorem row_match_iff_decodeWord {w : Word} {r : OpcodeRow} (hr : r ∈ opcodeTable) :
    w &&& r.mask = r.matchWord ↔ ∃ i, decodeWord w = .instr i ∧ i.row = r := by
  obtain ⟨i, rfl⟩ := (mem_opcodeTable_iff r).1 hr
  constructor
  · exact fun h => decodeWord_of_codesMatch ((row_match_iff_codesMatch i w).1 h)
  · rintro ⟨j, hd, hrow⟩
    exact hrow ▸ mask_of_decodeWord hd

/-! ### Shift words with `funct7` not 0 -/

theorem unsupportedFunctWord_of_shift {w : Word} (hop : fieldOpcode w = 0x13#7)
    (h3 : fieldFunct3 w = 1#3) (h7 : fieldFunct7 w ≠ 0x00#7) : Machine.unsupportedFunctWord w :=
  .inl ⟨hop, .inr ⟨h3, h7⟩⟩

end Sys2Proof

namespace Sys2Proof.Proofs

open Sys2Proof.Machine

/-- Settles O1: each word is decoded by evaluation. -/
theorem specWordsDecodeToTheirInstructions : Obligations.SpecWordsDecodeToTheirInstructions := by
  unfold Obligations.SpecWordsDecodeToTheirInstructions
  decide

/-- Settles O4: the immediate is the one its class assembles, which is in the class's range. -/
theorem decodedInstructionsAreWellFormed : Obligations.DecodedInstructionsAreWellFormed :=
  fun _ _ => wellFormed_of_decodeWord

/-- Settles O5: a match is a decoding, by `row_match_iff_decodeWord`, and a word has one decoding. -/
theorem opcodeTableDecidesTheInstruction : Obligations.OpcodeTableDecidesTheInstruction := by
  refine ⟨fun w r => row_match_iff_decodeWord, fun w r q hr hq hwr hwq => ?disjoint,
    fun w hnone i hi => ?complete⟩
  case disjoint =>
    obtain ⟨i, hi, rfl⟩ := (row_match_iff_decodeWord hr).1 hwr
    obtain ⟨j, hj, rfl⟩ := (row_match_iff_decodeWord hq).1 hwq
    rw [decodeWord_instr_inj hi hj]
  case complete =>
    exact hnone i.row ((mem_opcodeTable_iff _).2 ⟨i, rfl⟩) (mask_of_decodeWord hi)

/-- Settles O10: the record of each class is the model's own lemma for it; an opcode outside the list is
of class X. -/
theorem decodedRecordZeroFillOfImmediateClasses :
    Obligations.DecodedRecordZeroFillOfImmediateClasses := by
  refine fun w => ⟨decode_i, decode_s, decode_b, fun hop => ?_⟩
  exact decode_unrecognised fun h => hop (List.mem_cons_of_mem _ h)

/-- Settles O27: the row's mask fixes opcode, funct3 and funct7; a shift word with another funct7 is in
set 3 of R65; a left shift multiplies by a power of two. -/
theorem slliShiftsLeftByTheImmediate : Obligations.SlliShiftsLeftByTheImmediate := by
  refine ⟨fun w h h7 => ?unsupported, fun w h => ?decoding, fun rd rs1 imm s => ?execution⟩
  case unsupported =>
    obtain ⟨hop, h3⟩ := (mask10_iff w 0x13#7 1#3).1 h
    exact (decodeWord_unsupportedFunct_iff w).2 (unsupportedFunctWord_of_shift hop h3 h7)
  case decoding =>
    obtain ⟨hop, h3, h7⟩ := (mask17_iff w 0x13#7 1#3 0x00#7).1 h
    exact decodeWord_slli hop h3 h7
  case execution =>
    refine exec_commits (v := s.x rs1 <<< imm.toNat) rfl ?_
    rw [BitVec.toNat_shiftLeft, Nat.shiftLeft_eq]

/-- Settles O34: as O33; a right shift that fills with the sign is the floor of the signed reading. -/
theorem sraFillsWithTheSign : Obligations.SraFillsWithTheSign := by
  refine ⟨fun w h => ?decoding, fun rd rs1 rs2 s => ?execution⟩
  case decoding => exact decodeWord_of_mask17_r 5#3 0x20#7 h
  case execution =>
    refine exec_commits (v := (s.x rs1).sshiftRight (s.shiftAmount rs2)) rfl ?_
    rw [BitVec.toInt_sshiftRight, Int.shiftRight_eq_div_pow, State.shiftAmount_eq_mod]
    push_cast
    rfl

end Sys2Proof.Proofs
end

section
/-! SUPPORT. The bytes of a word in memory (R35, R36), the store and what is read after it (R125, R190,
R191), the word placed for the next fetch; what each instruction computes from the state before (R190);
and O22, O23, O37, O53 and O56. -/

namespace Sys2Proof

/-! ### Bytes of a word -/

theorem leByte_toNat (w : Word) (k : Nat) : (leByte w k).toNat = w.toNat / 2 ^ (8 * k) % 256 := by
  rw [leByte, BitVec.extractLsb'_toNat, Nat.shiftRight_eq_div_pow]

/-- Byte `k` of four bytes made a word is the `k`-th of them. -/
theorem leByte_leWord (b : Nat → Byte) {k : Nat} (hk : k < 4) :
    leByte (leWord (b 0) (b 1) (b 2) (b 3)) k = b k := by
  refine BitVec.eq_of_getLsbD_eq fun i hi => ?_
  simp only [leByte, leWord, BitVec.getLsbD_extractLsb', BitVec.getLsbD_append]
  interval_cases k <;> interval_cases i <;> simp

end Sys2Proof

namespace Sys2Proof.Machine

/-- The address `k` after `a`, modulo 2^32. -/
theorem addr_offset_toNat (a : Word) (k : Nat) :
    (a + BitVec.ofNat 32 k).toNat = (a.toNat + k) % 2 ^ 32 := by
  rw [BitVec.toNat_add, BitVec.toNat_ofNat, Nat.add_mod_mod]

theorem Memory.leByte_read32 (m : Memory) (a : Word) {k : Nat} (hk : k < 4) :
    leByte (m.read32 a) k = m.read (a + BitVec.ofNat 32 k).toNat := by
  have h := leByte_leWord (fun j => m.read (a + BitVec.ofNat 32 j).toNat) hk
  simpa [Memory.read32] using h

/-! ### The policy of the reference memory (R37) -/

theorem permits_iff (c : Config) (a : Word) :
    permits c a = true ↔ (c.misaligned = .refuse → a.toNat % 4 = 0) := by
  cases h : c.misaligned with
  | refuse => simp [permits_refuse h, aligned_iff]
  | bytewise => simp [permits_bytewise h]

/-- A misaligned address under `refuse` is the one case the reference memory does not permit. -/
theorem permits_eq_false_iff (c : Config) (a : Word) :
    permits c a = false ↔ c.misaligned = .refuse ∧ a.toNat % 4 ≠ 0 := by
  rw [← Bool.not_eq_true, permits_iff, Classical.not_imp]

/-! ### The store (R125) -/

section
variable {rs1 rs2 : RegIdx} {imm : Word} {s : State}

/-- Where the memory defines the write, SW has this next state. -/
theorem execSw_next {m : Memory}
    (h : writePort s.cfg s.mem (s.effAddr rs1 imm) (s.x rs2) = some m) :
    exec (.sw rs1 rs2 imm) s =
      .next ((s.nextOf.setMem m).logAccess (.write (s.effAddr rs1 imm) (s.x rs2))) :=
  (execSw_next_iff rs1 rs2 imm s _).2 ⟨m, h, rfl⟩

/-- A read at the store address then answers the word stored (R190, R191). -/
theorem execSw_reads_back (hwf : s.mem.wf)
    (h : (writePort s.cfg s.mem (s.effAddr rs1 imm) (s.x rs2)).isSome = true) :
    ∃ t, exec (.sw rs1 rs2 imm) s = .next t ∧ t.pc = s.pc + 4#32 ∧ t.halted = s.halted ∧
      readPort t.cfg t.mem (s.effAddr rs1 imm) = some (s.x rs2) := by
  obtain ⟨m, hm⟩ := Option.isSome_iff_exists.1 h
  exact ⟨_, execSw_next hm, rfl, rfl, readPort_of_writePort hwf hm⟩

/-- Over the reference memory the store is `write32` (R35). -/
theorem execSw_refMem (hmem : s.cfg.memory = .refMem)
    (ha : s.cfg.misaligned = .refuse → (s.effAddr rs1 imm).toNat % 4 = 0) :
    ∃ t, exec (.sw rs1 rs2 imm) s = .next t ∧
      t.mem = s.mem.write32 (s.effAddr rs1 imm) (s.x rs2) :=
  ⟨_, execSw_next ((writePort_refMem hmem _ _ _ _).2 ⟨(permits_iff _ _).2 ha, rfl⟩), rfl⟩

/-- The reference memory refuses a misaligned store under `refuse` (R37). -/
theorem execSw_misaligned (hmem : s.cfg.memory = .refMem) (hp : s.cfg.misaligned = .refuse)
    (ha : (s.effAddr rs1 imm).toNat % 4 ≠ 0) :
    exec (.sw rs1 rs2 imm) s = .refused (.misalignedStore (s.effAddr rs1 imm)) := by
  have hnone := (writePort_refMem_none hmem s.mem _ (s.x rs2)).2 ((permits_eq_false_iff _ _).2 ⟨hp, ha⟩)
  refine (execSw_refused hnone).trans ?_
  rw [storeRefusal, hmem]

end

/-! ### The values of the state before (R190) -/

section
variable {i : Instr} {s : State}

/-- An instruction that commits `v` to `rd` leaves `rd` reading as `v`, computed before the write. -/
theorem leaves_of_commit {rd : RegIdx} {v : Word} (he : exec i s = s.commitReg rd v) :
    Leaves (exec i s) rd v := by
  refine ⟨s.nextOf.setX rd v, he, ?_⟩
  simp [State.setX_x_same, State.isZeroReg_iff]

/-- An instruction that branches on a condition which means `P` goes to its target if `P` holds. -/
theorem goesTo_of_branch {P : Prop} [Decidable P] {c : Bool} {imm : Word}
    (he : exec i s = s.branch c imm) (hc : c = true ↔ P) :
    GoesTo (exec i s) (if P then s.pc + imm else s.pc + 4#32) :=
  ⟨_, he.trans (branch_eq s c imm), if_congr hc rfl rfl⟩

end

theorem boolWord_decide (p : Prop) [Decidable p] :
    boolWord (decide p) = if p then 1#32 else 0#32 := by
  simp only [boolWord, decide_eq_true_eq]

/-! ### The word placed where the next step fetches (log entry 10) -/

/-- Clearing the two low bits makes a multiple of 4. -/
theorem clearLowBits_toNat_mod (a : Word) : (a &&& 0xFFFFFFFC#32).toNat % 4 = 0 := by
  rw [BitVec.toNat_and]
  exact (Nat.and_mod_two_pow (n := 2)).trans (Nat.and_zero _)

theorem State.fetchPc_eq_pc {s : State} (h : s.cfg.memory ≠ .refMem ∨ permits s.cfg s.pc = true) :
    s.fetchPc = s.pc := by
  unfold State.fetchPc
  cases hk : s.cfg.memory with
  | refMem => exact if_pos (h.resolve_left fun hne => hne hk)
  | other k => rfl

/-- The reference memory has a meaning for the fetch at `fetchPc`, whatever the PC was. -/
theorem State.permits_fetchPc {s : State} (h : s.cfg.memory = .refMem) :
    permits s.cfg s.fetchPc = true := by
  by_cases hp : permits s.cfg s.pc = true
  · rwa [State.fetchPc_eq_pc (.inr hp)]
  · have hpc : s.fetchPc = s.pc &&& 0xFFFFFFFC#32 := by simp [State.fetchPc, h, hp]
    rw [hpc, permits_iff]
    exact fun _ => clearLowBits_toNat_mod s.pc

/-- The machine with the word placed fetches it, where the memory defines the write. -/
theorem State.fetch_placeWord {s : State} {w : Word} (hwf : s.mem.wf)
    (h : (writePort s.cfg s.mem s.fetchPc w).isSome = true) :
    ∃ f, (s.placeWord w).fetch = some (w, f) := by
  obtain ⟨m, hm⟩ := Option.isSome_iff_exists.1 h
  refine ⟨_, (State.fetch_iff _ w _).2 ⟨?_, rfl⟩⟩
  have hmem : (s.placeWord w).mem = m := by simp [State.placeWord, hm]
  rw [State.wordAt, hmem]
  exact readPort_of_writePort hwf hm

end Sys2Proof.Machine

namespace Sys2Proof.Proofs

open Sys2Proof.Machine

/-- Settles O22: byte `k` of a word is its bits from `8k` up, and stands at the `k`-th address. -/
theorem wordsAreStoredLittleEndian : Obligations.WordsAreStoredLittleEndian := by
  intro m a v k hm hk
  rw [← addr_offset_toNat]
  constructor
  · rw [Memory.read_write32_byte hm a v hk, leByte_toNat]
  · rw [← leByte_toNat, Memory.leByte_read32 m a hk]

/-- Settles O23: the step is the store, after which the port reads the word back whatever state reads it. -/
theorem aStoreIsSeenByEveryLaterFetch : Obligations.AStoreIsSeenByEveryLaterFetch := by
  intro s w rs1 rs2 imm hwf hr hw hd hsome
  obtain ⟨t, ht, hpc, hhalted, hread⟩ := execSw_reads_back (s := s.fetched) hwf hsome
  refine ⟨t, ?_, ?_, hhalted.trans hr, fun u hmem hcfg hupc => ⟨_, (State.fetch_iff _ _ _).2 ⟨?_, rfl⟩⟩⟩
  · rw [step_running hr hw, hd]
    exact ht
  · rw [hpc, BitVec.toNat_add]
    rfl
  · rw [State.wordAt, hmem, hcfg, hupc]
    exact hread

/-- Settles O37: the row's mask fixes the decoding; one lemma per clause, the store changing the memory,
the PC and the record of the port alone. -/
theorem swStoresTheWordAndNothingElse : Obligations.SwStoresTheWordAndNothingElse := by
  refine ⟨fun w h => ?decoding, fun rs1 rs2 imm s => ⟨BitVec.toNat_add _ _, fun m hm => ?defined,
    execSw_refused, fun hmem hwf ha => ?aligned, execSw_misaligned⟩⟩
  case decoding =>
    obtain ⟨hop, h3⟩ := (mask10_iff w 0x23#7 2#3).1 h
    exact decodeWord_sw hop h3
  case defined =>
    exact ⟨_, execSw_next hm, rfl, fun _ => rfl, ⟨rfl, rfl, rfl⟩, BitVec.toNat_add _ _, rfl, rfl⟩
  case aligned =>
    obtain ⟨t, ht, hstored⟩ := execSw_refMem (rs2 := rs2) hmem ha
    refine ⟨t, ht, ?_, fun b h0 h1 h2 h3 => ?_⟩
    · rw [hstored, Memory.read32_write32_same hwf]
    · rw [hstored, Memory.read_write32_other _ _ _ h0 h1 h2 h3]

/-- Settles O53: every meaning computes what it commits, where it goes or what it stores from the state
before; `ADD r, r, r` and `SW r, 0(r)` are special cases. -/
theorem sourcesAreReadBeforeTheDestinationIsWritten :
    Obligations.SourcesAreReadBeforeTheDestinationIsWritten := by
  have reads_back {rs1 rs2 : RegIdx} {imm : Word} {s : State} (hwf : s.mem.wf)
      (h : (writePort s.cfg s.mem (s.effAddr rs1 imm) (s.x rs2)).isSome = true) :
      ∃ t, exec (.sw rs1 rs2 imm) s = .next t ∧ t.wordAt (s.x rs1 + imm) = some (s.x rs2) := by
    obtain ⟨t, ht, -, -, hread⟩ := execSw_reads_back hwf h
    exact ⟨t, ht, hread⟩
  refine ⟨fun rd rs1 rs2 imm s => ?_, fun r s => ⟨fun hr => ?doubles, fun hwf h => ?storesBase⟩⟩
  · simp only [← State.shiftAmount_eq_mod, ← boolWord_decide]
    exact ⟨leaves_of_commit rfl, leaves_of_commit rfl, leaves_of_commit rfl, leaves_of_commit rfl,
      leaves_of_commit rfl, leaves_of_commit rfl, leaves_of_commit rfl, leaves_of_commit rfl,
      leaves_of_commit rfl, leaves_of_commit rfl, leaves_of_commit rfl, leaves_of_commit rfl,
      leaves_of_commit rfl, goesTo_of_branch rfl (s.condEq_iff rs1 rs2),
      goesTo_of_branch rfl (s.not_condEq_iff rs1 rs2), goesTo_of_branch rfl (s.condLt_iff rs1 rs2),
      goesTo_of_branch rfl (s.not_condLt_iff rs1 rs2), reads_back⟩
  case doubles =>
    have hz : s.isZeroReg r = false := by rwa [← Bool.not_eq_true, s.isZeroReg_iff]
    refine ⟨s.nextOf.setX r (s.x r + s.x r), rfl, ?_⟩
    rw [State.setX_x_same, State.nextOf_isZeroReg, hz, if_neg Bool.false_ne_true, BitVec.toNat_add,
      Nat.two_mul]
  case storesBase =>
    have hbase : s.x r + 0#32 = s.x r := BitVec.add_zero _
    have hstore := reads_back (rs1 := r) (rs2 := r) (imm := 0#32) hwf (by rwa [State.effAddr, hbase])
    rwa [hbase] at hstore

/-- Settles O56: the placed state by its fields; the reference memory permits the write at `fetchPc`, and
a fetch there reads it back. -/
theorem aPlacedWordIsTheNextInstruction : Obligations.APlacedWordIsTheNextInstruction := by
  intro s w hwf hw
  have hplace : s.withFetchWord 32 w = s.placeWord (BitVec.ofNat 32 w) := by
    rw [State.withFetchWord, Nat.mod_eq_of_lt hw]
  rw [hplace]
  refine ⟨rfl, fun _ => rfl, rfl, rfl, State.fetchPc_eq_pc, fun hmem => ?_, State.fetch_placeWord hwf⟩
  have hwrite := (writePort_refMem hmem s.mem _ s.fetchPc (BitVec.ofNat 32 w)).2
    ⟨State.permits_fetchPc hmem, rfl⟩
  rw [hwrite, Option.isSome_some]

end Sys2Proof.Proofs
end

section
/-! SUPPORT. The outputs of a step (R25, R31, R167), when it has no next state (R37, R173), the step of a
halted machine repeated (R153), the ports of a cycle (R24, R160), and O43, O47 to O51 and O54. -/

namespace Sys2Proof.Machine

/-! ### The diagnostic (R167) -/

theorem exec_diag {i : Instr} {s t : State} (h : exec i s = .next t) : t.diag = s.diag := by
  rcases exec_cases h with ⟨rd, v, -, rfl⟩ | ⟨p, -, rfl⟩ | ⟨rs1, rs2, imm, m, -, -, rfl⟩ | ⟨-, rfl⟩
  all_goals simp

/-- The diagnostic of a step is that of the word it fetched, none while halted. -/
theorem step_diag {s t : State} (h : step s = .next t) :
    (s.halted = true ∧ t.diag = .none) ∨
    (s.halted = false ∧ ∃ w, s.wordAt s.pc = some w ∧ t.diag = diagOf (decodeWord w)) := by
  rcases step_next_cases h with ⟨hr, rfl⟩ | ⟨hr, w, i, hw, hd, hi⟩ | ⟨hr, w, hw, -, rfl⟩
  · exact .inl ⟨hr, rfl⟩
  · exact .inr ⟨hr, w, hw, (exec_diag hi).trans (by rw [hd]; rfl)⟩
  · exact .inr ⟨hr, w, hw, rfl⟩

theorem diagOf_eq_unsupportedOpcode_iff (w : Word) :
    diagOf (decodeWord w) = .unsupportedOpcode ↔ unsupportedOpcodeWord w := by
  rw [← decodeWord_unsupportedOpcode_iff]
  cases decodeWord w <;> simp [diagOf]

theorem diagOf_eq_unsupportedFunct_iff (w : Word) :
    diagOf (decodeWord w) = .unsupportedFunct ↔ unsupportedFunctWord w := by
  rw [← decodeWord_unsupportedFunct_iff]
  cases decodeWord w <;> simp [diagOf]

/-! ### The uses of the port (R31, R32) -/

/-- An instruction that is no SW does not use the port. -/
theorem exec_accesses {i : Instr} {s t : State} (h : exec i s = .next t)
    (hi : ∀ rs1 rs2 imm, i ≠ .sw rs1 rs2 imm) : t.accesses = s.accesses := by
  rcases exec_cases h with ⟨rd, v, -, rfl⟩ | ⟨p, -, rfl⟩ | ⟨rs1, rs2, imm, m, hsw, -, -⟩ | ⟨-, rfl⟩
  · simp
  · rfl
  · exact absurd hsw (hi rs1 rs2 imm)
  · rfl

/-- SW uses it once, for its store. -/
theorem execSw_accesses {rs1 rs2 : RegIdx} {imm : Word} {s t : State}
    (h : exec (.sw rs1 rs2 imm) s = .next t) :
    t.accesses = s.accesses ++ [.write (s.effAddr rs1 imm) (s.x rs2)] := by
  obtain ⟨m, -, rfl⟩ := (execSw_next_iff _ _ _ _ _).1 h
  rfl

theorem step_accesses_sw {s t : State} {w : Word} {rs1 rs2 : RegIdx} {imm : Word}
    (hr : s.halted = false) (hw : s.wordAt s.pc = some w) (hd : decodeWord w = .instr (.sw rs1 rs2 imm))
    (h : step s = .next t) :
    t.accesses = [.read s.pc, .write (s.effAddr rs1 imm) (s.x rs2)] := by
  rw [step_running hr hw, hd] at h
  exact execSw_accesses h

theorem step_accesses_of_ne_sw {s t : State} {w : Word} (hr : s.halted = false)
    (hw : s.wordAt s.pc = some w) (hd : ∀ rs1 rs2 imm, decodeWord w ≠ .instr (.sw rs1 rs2 imm))
    (h : step s = .next t) : t.accesses = [.read s.pc] := by
  rw [step_running hr hw] at h
  rcases execDecoded_cases h with ⟨i, hi, hexec⟩ | ⟨op, -, rfl⟩ | ⟨rec, -, rfl⟩
  · exact exec_accesses hexec fun rs1 rs2 imm hsw => hd rs1 rs2 imm (hsw ▸ hi)
  · rfl
  · rfl

/-! ### No next state (R37, R173) -/

/-- The one instruction without a next state is an SW whose write the memory does not define. -/
theorem exec_next_or_refused (i : Instr) (s : State) :
    (∃ t, exec i s = .next t) ∨
    ∃ rs1 rs2 imm, i = .sw rs1 rs2 imm ∧
      writePort s.cfg s.mem (s.effAddr rs1 imm) (s.x rs2) = none ∧
      exec i s = .refused (storeRefusal s.cfg (s.effAddr rs1 imm)) := by
  cases i with
  | sw rs1 rs2 imm =>
    cases hm : writePort s.cfg s.mem (s.effAddr rs1 imm) (s.x rs2) with
    | none => exact .inr ⟨rs1, rs2, imm, rfl, hm, execSw_refused hm⟩
    | some m => exact .inl ⟨_, execSw_next hm⟩
  | _ => exact .inl ⟨_, rfl⟩

/-- A step without a next state has no fetch, or fetches an SW without a store. -/
theorem step_next_or_refused (s : State) :
    (∃ t, step s = .next t) ∨
    (s.halted = false ∧ s.wordAt s.pc = none ∧ step s = .refused (fetchRefusal s.cfg s.pc)) ∨
    (s.halted = false ∧ ∃ w rs1 rs2 imm,
      s.wordAt s.pc = some w ∧ decodeWord w = .instr (.sw rs1 rs2 imm) ∧
      writePort s.cfg s.mem (s.effAddr rs1 imm) (s.x rs2) = none ∧
      step s = .refused (storeRefusal s.cfg (s.effAddr rs1 imm))) := by
  cases hr : s.halted with
  | true => exact .inl ⟨_, step_halted hr⟩
  | false =>
    cases hw : s.wordAt s.pc with
    | none => exact .inr (.inl ⟨rfl, rfl, step_refused hr hw⟩)
    | some w =>
      rw [step_running hr hw]
      cases hd : decodeWord w with
      | unsupportedOpcode op => exact .inl ⟨_, rfl⟩
      | unsupportedFunct rec => exact .inl ⟨_, rfl⟩
      | instr i =>
        rcases exec_next_or_refused i s.fetched with next | ⟨rs1, rs2, imm, rfl, hm, hexec⟩
        · exact .inl next
        · exact .inr (.inr ⟨rfl, w, rs1, rs2, imm, rfl, hd, hm, hexec⟩)

section
variable {s : State} (hmem : s.cfg.memory = .refMem)
include hmem

/-- Over the reference memory both cases are misaligned addresses under `refuse`. -/
theorem step_next_or_misaligned :
    (∃ t, step s = .next t) ∨
    (s.halted = false ∧ s.cfg.misaligned = .refuse ∧ s.pc.toNat % 4 ≠ 0) ∨
    (s.halted = false ∧ s.cfg.misaligned = .refuse ∧ s.pc.toNat % 4 = 0 ∧
      ∃ rs1 rs2 imm, decodeWord (s.mem.read32 s.pc) = .instr (.sw rs1 rs2 imm) ∧
        (s.effAddr rs1 imm).toNat % 4 ≠ 0) := by
  rcases step_next_or_refused s with next | ⟨hr, hw, -⟩ | ⟨hr, w, rs1, rs2, imm, hw, hd, hm, -⟩
  · exact .inl next
  · have hp := (readPort_refMem_none hmem _ _).1 hw
    exact .inr (.inl ⟨hr, (permits_eq_false_iff _ _).1 hp⟩)
  · obtain ⟨hfetch, rfl⟩ := (readPort_refMem hmem _ _ _).1 hw
    obtain ⟨hp, ha⟩ := (permits_eq_false_iff _ _).1 ((writePort_refMem_none hmem _ _ _).1 hm)
    exact .inr (.inr ⟨hr, hp, (permits_iff _ _).1 hfetch hp, rs1, rs2, imm, hd, ha⟩)

theorem step_misalignedFetch (hr : s.halted = false) (hp : s.cfg.misaligned = .refuse)
    (hpc : s.pc.toNat % 4 ≠ 0) : step s = .refused (.misalignedFetch s.pc) := by
  have hw := (readPort_refMem_none hmem s.mem _).2 ((permits_eq_false_iff _ _).2 ⟨hp, hpc⟩)
  rw [step_refused hr hw, fetchRefusal, hmem]

theorem step_misalignedStore {rs1 rs2 : RegIdx} {imm : Word} (hr : s.halted = false)
    (hp : s.cfg.misaligned = .refuse) (hpc : s.pc.toNat % 4 = 0)
    (hd : decodeWord (s.mem.read32 s.pc) = .instr (.sw rs1 rs2 imm))
    (ha : (s.effAddr rs1 imm).toNat % 4 ≠ 0) :
    step s = .refused (.misalignedStore (s.effAddr rs1 imm)) := by
  have hw := (readPort_refMem hmem s.mem _ _).2 ⟨(permits_iff _ _).2 fun _ => hpc, rfl⟩
  rw [step_running hr hw, hd]
  exact execSw_misaligned (s := s.fetched) hmem hp ha

end

/-! ### While halted (R153) -/

/-- A halted machine only has its outputs cleared, however often it is stepped. -/
theorem core_run_halted (k : Nat) {s : State} (h : s.halted = true) :
    Host.Core.run Sys2Proof.core (k + 1) s = .next s.beginStep := by
  induction k generalizing s with
  | zero => exact core_run_succ 0 (step_halted h)
  | succ k ih => exact (core_run_succ (k + 1) (step_halted h)).trans (ih (s := s.beginStep) h)

/-! ### The ports of a cycle (R24, R160) -/

/-- The store a word issues is that of an SW. -/
theorem State.storeOf_eq_some_iff (s : State) (d : Decoded) (a v : Word) :
    s.storeOf d = some (a, v) ↔
      ∃ rs1 rs2 imm, d = .instr (.sw rs1 rs2 imm) ∧ a = s.effAddr rs1 imm ∧ v = s.x rs2 := by
  constructor
  · intro h
    unfold State.storeOf at h
    split at h
    · cases h
      exact ⟨_, _, _, rfl, rfl, rfl⟩
    · cases h
  · rintro ⟨rs1, rs2, imm, rfl, rfl, rfl⟩
    rfl

section
variable {p : PortsIn} {s : State}

/-- A cycle that performs a step shows what the fetched word does. -/
theorem cycleStep_performed {w : Word} (hen : p.stepEn = true) (hrst : p.rst = false)
    (hr : s.halted = false) (hw : s.wordAt s.pc = some w) :
    cycleStep p s = (diagOf (decodeWord w), s.storeOf (decodeWord w)) := by
  simp [cycleStep, hen, hrst, hr, hw]

/-- Any other cycle shows no diagnostic and no store (log entry 11; R153 while halted). -/
theorem cycleStep_idle
    (h : p.stepEn = false ∨ p.rst = true ∨ s.halted = true ∨ s.wordAt s.pc = none) :
    cycleStep p s = (.none, .none) := by
  rcases h with h | h | h | h
  · simp [cycleStep, h]
  · simp [cycleStep, h]
  · simp [cycleStep, h]
  · unfold cycleStep
    rw [h]
    exact ite_self _

/-- The two kinds of cycle. -/
theorem cycleStep_cases (p : PortsIn) (s : State) :
    cycleStep p s = (.none, .none) ∨
    (p.stepEn = true ∧ p.rst = false ∧ s.halted = false ∧ ∃ w, s.wordAt s.pc = some w ∧
      cycleStep p s = (diagOf (decodeWord w), s.storeOf (decodeWord w))) := by
  cases hen : p.stepEn with
  | false => exact .inl (cycleStep_idle (.inl hen))
  | true =>
    cases hrst : p.rst with
    | true => exact .inl (cycleStep_idle (.inr (.inl hrst)))
    | false =>
      cases hr : s.halted with
      | true => exact .inl (cycleStep_idle (.inr (.inr (.inl hr))))
      | false =>
        cases hw : s.wordAt s.pc with
        | none => exact .inl (cycleStep_idle (.inr (.inr (.inr hw))))
        | some w => exact .inr ⟨rfl, rfl, rfl, w, rfl, cycleStep_performed hen hrst hr hw⟩

/-- The write shown is the SW of the step performed, whatever the memory makes of it (R30, R125). -/
theorem portsOut_memWrite_iff (a v : Word) :
    (portsOut p s).memWrite = some (a, v) ↔
      p.stepEn = true ∧ p.rst = false ∧ s.halted = false ∧
      ∃ w rs1 rs2 imm, s.wordAt s.pc = some w ∧ decodeWord w = .instr (.sw rs1 rs2 imm) ∧
        a = s.effAddr rs1 imm ∧ v = s.x rs2 := by
  show (cycleStep p s).2 = some (a, v) ↔ _
  constructor
  · intro h
    rcases cycleStep_cases p s with idle | ⟨hen, hrst, hr, w, hw, performed⟩
    · rw [idle] at h
      cases h
    · rw [performed] at h
      obtain ⟨rs1, rs2, imm, hd, ha, hv⟩ := (s.storeOf_eq_some_iff _ a v).1 h
      exact ⟨hen, hrst, hr, w, rs1, rs2, imm, hw, hd, ha, hv⟩
  · rintro ⟨hen, hrst, hr, w, rs1, rs2, imm, hw, hd, ha, hv⟩
    rw [cycleStep_performed hen hrst hr hw]
    exact (s.storeOf_eq_some_iff _ a v).2 ⟨rs1, rs2, imm, hd, ha, hv⟩

/-- The diagnostic shown is that of the step performed. -/
theorem portsOut_diag_of_next {t : State} (hen : p.stepEn = true) (hrst : p.rst = false)
    (h : step s = .next t) : (portsOut p s).diag = t.diag.code := by
  show (cycleStep p s).1.code = _
  rcases step_diag h with ⟨hr, hdiag⟩ | ⟨hr, w, hw, hdiag⟩
  · rw [cycleStep_idle (.inr (.inr (.inl hr))), hdiag]
  · rw [cycleStep_performed hen hrst hr hw, hdiag]

/-- A step that is refused shows code 0: it fetches nothing, or an SW. -/
theorem portsOut_diag_of_refused {why : Refusal} (h : step s = .refused why) :
    (portsOut p s).diag = 0#2 := by
  show (cycleStep p s).1.code = _
  rcases step_next_or_refused s with ⟨t, ht⟩ | ⟨-, hw, -⟩ | ⟨-, w, rs1, rs2, imm, hw, hd, -, -⟩
  · rw [ht] at h
    cases h
  · rw [cycleStep_idle (.inr (.inr (.inr hw)))]
    rfl
  · rcases cycleStep_cases p s with idle | ⟨-, -, -, w', hw', performed⟩
    · rw [idle]
      rfl
    · obtain rfl : w = w' := Option.some.inj (hw.symm.trans hw')
      rw [performed, hd]
      rfl

end

/-- Register `i` as it is read, with the hard-wired zero spelt out (R12). -/
theorem State.x_eq_ite (s : State) (i : RegIdx) :
    s.x i = if s.cfg.x0Hardwired = true ∧ i = 0#5 then 0#32 else s.stored i :=
  if_congr (s.isZeroReg_iff i) rfl rfl

end Sys2Proof.Machine

namespace Sys2Proof.Proofs

open Sys2Proof.Machine

/-- Settles O43: the three lemmas of the step, and for a running one the decoded word's own meaning. -/
theorem aStepRunsTheDecodedInstruction : Obligations.AStepRunsTheDecodedInstruction := by
  refine fun s => ⟨step_halted, step_refused, fun hmem hp => (readPort_refMem hmem _ _ _).2 ⟨hp, rfl⟩,
    fun hr w hw => ⟨fun i hd => ?_, fun op hd => ?_, fun rec hd => ?_, step_hltWord hr hw⟩⟩
  all_goals
    rw [step_running hr hw, hd]
    rfl

/-- Settles O47: as O46, for the set of R143. -/
theorem unsupportedImmediateFunctionCodeIsANoOpWithADiagnostic :
    Obligations.UnsupportedImmediateFunctionCodeIsANoOpWithADiagnostic := by
  intro s w hr hw hop h
  obtain ⟨t, ht, hskip⟩ := step_unsupportedFunctWord hr hw (.inl ⟨hop, h⟩)
  exact ⟨t, ht, hskip.stepResult_running hr, hskip⟩

/-- Settles O48: the diagnostic of the step is that of the fetched word, which names the word's set. -/
theorem diagnosticsArePreciselyOfUnsupportedWords :
    Obligations.DiagnosticsArePreciselyOfUnsupportedWords := by
  intro s t h
  rcases step_diag h with ⟨hr, hdiag⟩ | ⟨hr, w, hw, hdiag⟩
  · simp [hr, hdiag]
  · rw [hdiag, diagOf_eq_unsupportedOpcode_iff, diagOf_eq_unsupportedFunct_iff]
    simp [hr, hw]

/-- Settles O49: one lemma for the step of an SW and one for that of any other word. -/
theorem oneFetchAndAtMostOneStorePerStep : Obligations.OneFetchAndAtMostOneStorePerStep := by
  refine fun s t h => ⟨fun hr => ?halted, fun hr w hw =>
    ⟨fun rs1 rs2 imm hd => step_accesses_sw hr hw hd h, fun hd => step_accesses_of_ne_sw hr hw hd h⟩⟩
  case halted =>
    rw [step_halted hr] at h
    cases h
    rfl

/-- Settles O50: every memory by `step_next_or_refused`, the reference memory by the policy of R37. -/
theorem onlyTheMemoryLeavesAStepWithoutSuccessor :
    Obligations.OnlyTheMemoryLeavesAStepWithoutSuccessor :=
  fun s => ⟨step_next_or_refused s, fun hmem => ⟨step_next_or_misaligned hmem,
    step_misalignedFetch hmem, fun hr hp hpc _ _ _ => step_misalignedStore hmem hr hp hpc⟩⟩

/-- Settles O51, by induction on the number of steps. -/
theorem aHaltedMachineStaysAsItIs : Obligations.AHaltedMachineStaysAsItIs :=
  fun k _ => core_run_halted k

/-- Settles O54: the write and the diagnostic by the two kinds of cycle, the other ports as they are
defined. -/
theorem portsShowTheStepOfTheCycle : Obligations.PortsShowTheStepOfTheCycle := by
  refine ⟨fun p s => ⟨rfl, rfl, rfl, rfl, s.x_eq_ite p.dbgRaddr, portsOut_memWrite_iff,
    fun t => portsOut_diag_of_next, fun why => portsOut_diag_of_refused, fun h => ?idle⟩, rfl, rfl, rfl⟩
  case idle =>
    have hidle : cycleStep p s = (.none, .none) := cycleStep_idle 
      (h.imp_right (.imp_right fun ⟨_, hw⟩ => .inr hw))
    simp [portsOut, hidle, Diag.code]

end Sys2Proof.Proofs
end

section
/-! SUPPORT. The run of R158: which states and diagnostics a run that ends goes through (D19), said once
by `EndsAfter` and tied both to `runFrom` and to `Host.Core.run`; and O52. -/

namespace Sys2Proof.Machine

/-! ### Runs, one step at a time -/

theorem runFrom_of_halted {s : State} (h : s.halted = true) (fuel : Nat) (acc : List Diag) :
    runFrom fuel s acc = .ended s acc := by
  cases fuel <;> simp [runFrom, h]

theorem runFrom_zero_of_running {s : State} (hr : s.halted = false) (acc : List Diag) :
    runFrom 0 s acc = .outOfFuel s acc := by
  simp [runFrom, hr]

theorem runFrom_succ_of_next {s t : State} (hr : s.halted = false) (h : step s = .next t)
    (fuel : Nat) (acc : List Diag) :
    runFrom (fuel + 1) s acc = runFrom fuel t (acc ++ [t.diag]) := by
  simp [runFrom, hr, h]

theorem runFrom_succ_of_refused {s : State} {why : Refusal} (hr : s.halted = false)
    (h : step s = .refused why) (fuel : Nat) (acc : List Diag) :
    runFrom (fuel + 1) s acc = .stuck why s acc := by
  simp [runFrom, hr, h]

/-- A step has a next state or is refused: there is no fault (R165). -/
theorem step_next_or_refused_why (s : State) :
    (∃ t, step s = .next t) ∨ ∃ why, step s = .refused why := by
  cases h : step s with
  | next t => exact .inl ⟨t, rfl⟩
  | fault r => cases r
  | refused why => exact .inr ⟨why, rfl⟩

theorem core_run_zero_next_iff (s f : State) : Host.Core.run Sys2Proof.core 0 s = .next f ↔ s = f :=
  ⟨Host.Outcome.next.inj, congrArg _⟩

theorem core_run_succ_refused {s : State} {why : Refusal} (k : Nat) (h : step s = .refused why) :
    Host.Core.run Sys2Proof.core (k + 1) s = .refused why := by
  refine (Host.Core.run.eq_2 Sys2Proof.core s k).trans ?_
  replace h : Sys2Proof.core.step s = .refused why := h
  generalize Sys2Proof.core.step s = o at h ⊢
  subst h
  rfl

/-- A run of `k + 1` steps that has a last state took a first step. -/
theorem core_run_succ_next_iff {k : Nat} {s f : State} :
    Host.Core.run Sys2Proof.core (k + 1) s = .next f ↔
      ∃ t, step s = .next t ∧ Host.Core.run Sys2Proof.core k t = .next f := by
  constructor
  · intro h
    rcases step_next_or_refused_why s with ⟨t, ht⟩ | ⟨why, hwhy⟩
    · exact ⟨t, ht, (core_run_succ k ht).symm.trans h⟩
    · cases (core_run_succ_refused k hwhy).symm.trans h
  · rintro ⟨t, ht, h⟩
    exact (core_run_succ k ht).trans h

/-! ### The run that ends (D19) -/

/-- The run from `s` ends in `f`: `f` is its first halted state, and the list is the diagnostics of its
steps in order. -/
def EndsAfter : List Diag → State → State → Prop
  | [], s, f => s.halted = true ∧ s = f
  | d :: ds, s, f => s.halted = false ∧ ∃ t, step s = .next t ∧ t.diag = d ∧ EndsAfter ds t f

section
variable {s t f : State} {ds : List Diag}

theorem endsAfter_of_halted (h : s.halted = true) : EndsAfter ds s f ↔ ds = [] ∧ s = f := by
  cases ds <;> simp [EndsAfter, h]

theorem endsAfter_of_next (hr : s.halted = false) (h : step s = .next t) :
    EndsAfter ds s f ↔ ∃ es, ds = t.diag :: es ∧ EndsAfter es t f := by
  cases ds <;> simp [EndsAfter, hr, h, eq_comm]

theorem not_endsAfter_of_refused {why : Refusal} (hr : s.halted = false)
    (h : step s = .refused why) : ¬ EndsAfter ds s f := by
  cases ds <;> simp [EndsAfter, hr, h]

/-- The fuelled run ends exactly where the run does, if it has fuel for all of its steps. -/
theorem runFrom_eq_ended_iff (fuel : Nat) (s f : State) (acc ds : List Diag) :
    runFrom fuel s acc = .ended f ds ↔
      ∃ es, ds = acc ++ es ∧ es.length ≤ fuel ∧ EndsAfter es s f := by
  induction fuel generalizing s acc with
  | zero =>
    cases hr : s.halted with
    | true =>
      rw [runFrom_of_halted hr]
      simp [endsAfter_of_halted hr, eq_comm, and_comm]
    | false =>
      rw [runFrom_zero_of_running hr]
      simp [EndsAfter, hr]
  | succ fuel ih =>
    cases hr : s.halted with
    | true =>
      rw [runFrom_of_halted hr]
      simp [endsAfter_of_halted hr, eq_comm, and_comm]
    | false =>
      rcases step_next_or_refused_why s with ⟨t, ht⟩ | ⟨why, hwhy⟩
      · rw [runFrom_succ_of_next hr ht, ih]
        simp [endsAfter_of_next hr ht]
      · rw [runFrom_succ_of_refused hr hwhy]
        simp [not_endsAfter_of_refused hr hwhy]

theorem EndsAfter.final_halted (h : EndsAfter ds s f) : f.halted = true := by
  induction ds generalizing s with
  | nil =>
    obtain ⟨hs, rfl⟩ := h
    exact hs
  | cons d ds ih =>
    obtain ⟨-, t, -, -, hrest⟩ := h
    exact ih hrest

theorem EndsAfter.run (h : EndsAfter ds s f) :
    Host.Core.run Sys2Proof.core ds.length s = .next f := by
  induction ds generalizing s with
  | nil =>
    obtain ⟨-, hsf⟩ := h
    exact (core_run_zero_next_iff s f).2 hsf
  | cons d ds ih =>
    obtain ⟨-, t, ht, -, hrest⟩ := h
    exact core_run_succ_next_iff.2 ⟨t, ht, ih hrest⟩

theorem EndsAfter.running_before (h : EndsAfter ds s f) {k : Nat} {u : State} (hk : k < ds.length)
    (hu : Host.Core.run Sys2Proof.core k s = .next u) : u.halted = false := by
  induction ds generalizing s k with
  | nil => exact absurd hk (Nat.not_lt_zero k)
  | cons d ds ih =>
    obtain ⟨hr, t, ht, -, hrest⟩ := h
    cases k with
    | zero =>
      obtain rfl := (core_run_zero_next_iff s u).1 hu
      exact hr
    | succ k => exact ih hrest (Nat.lt_of_succ_lt_succ hk) ((core_run_succ k ht).symm.trans hu)

theorem EndsAfter.diag_of_step (h : EndsAfter ds s f) {k : Nat} {u : State} (hk : k < ds.length)
    (hu : Host.Core.run Sys2Proof.core (k + 1) s = .next u) : ds[k]? = some u.diag := by
  induction ds generalizing s k with
  | nil => exact absurd hk (Nat.not_lt_zero k)
  | cons d ds ih =>
    obtain ⟨-, t, ht, rfl, hrest⟩ := h
    replace hu := (core_run_succ k ht).symm.trans hu
    cases k with
    | zero =>
      obtain rfl := (core_run_zero_next_iff t u).1 hu
      rfl
    | succ k => exact ih hrest (Nat.lt_of_succ_lt_succ hk) hu

/-- A run through running states only to a halted one has ended there. -/
theorem endsAfter_of_run {k : Nat} (h : Host.Core.run Sys2Proof.core k s = .next f)
    (hf : f.halted = true)
    (hbefore : ∀ (j : Nat) (u : State), j < k →
      Host.Core.run Sys2Proof.core j s = .next u → u.halted = false) :
    ∃ ds, EndsAfter ds s f ∧ ds.length = k := by
  induction k generalizing s with
  | zero =>
    obtain rfl := (core_run_zero_next_iff s f).1 h
    exact ⟨[], ⟨hf, rfl⟩, rfl⟩
  | succ k ih =>
    obtain ⟨t, ht, hrest⟩ := core_run_succ_next_iff.1 h
    have hr : s.halted = false :=
      hbefore 0 s (Nat.succ_pos k) ((core_run_zero_next_iff s s).2 rfl)
    obtain ⟨ds, hends, hlen⟩ := ih hrest fun j u hj hu =>
      hbefore (j + 1) u (Nat.succ_lt_succ hj) (core_run_succ_next_iff.2 ⟨t, ht, hu⟩)
    exact ⟨t.diag :: ds, ⟨hr, t, ht, rfl, hends⟩, congrArg (· + 1) hlen⟩

end

theorem runToHalt_eq_ended_iff (fuel : Nat) (s f : State) (ds : List Diag) :
    runToHalt fuel s = .ended f ds ↔ ds.length ≤ fuel ∧ EndsAfter ds s f := by
  simp [runToHalt, runFrom_eq_ended_iff]

/-- A run that is out of fuel took as many steps as there was fuel, and the machine runs (D27). -/
theorem runFrom_outOfFuel {fuel : Nat} {s u : State} {acc ds : List Diag}
    (h : runFrom fuel s acc = .outOfFuel u ds) :
    u.halted = false ∧ Host.Core.run Sys2Proof.core fuel s = .next u := by
  induction fuel generalizing s acc with
  | zero =>
    cases hr : s.halted with
    | true =>
      rw [runFrom_of_halted hr] at h
      cases h
    | false =>
      rw [runFrom_zero_of_running hr] at h
      cases h
      exact ⟨hr, (core_run_zero_next_iff _ _).2 rfl⟩
  | succ fuel ih =>
    cases hr : s.halted with
    | true =>
      rw [runFrom_of_halted hr] at h
      cases h
    | false =>
      rcases step_next_or_refused_why s with ⟨t, ht⟩ | ⟨why, hwhy⟩
      · rw [runFrom_succ_of_next hr ht] at h
        obtain ⟨hu, hrun⟩ := ih h
        exact ⟨hu, core_run_succ_next_iff.2 ⟨t, ht, hrun⟩⟩
      · rw [runFrom_succ_of_refused hr hwhy] at h
        cases h

end Sys2Proof.Machine

namespace Sys2Proof.Proofs

open Sys2Proof.Machine

/-- Settles O52: a run that ends is an `EndsAfter`, which does not speak of the fuel; what it says of the
states and the diagnostics on the way is one lemma each, by induction on the list. -/
theorem aRunEndsAtItsFirstHaltedStateForGood :
    Obligations.ARunEndsAtItsFirstHaltedStateForGood := by
  refine ⟨fun fuel s f ds h => ?ends, fun fuel k s f hk h hf hbefore => ?converse,
    fun fuel s u ds => runFrom_outOfFuel⟩
  case ends =>
    obtain ⟨hfuel, hends⟩ := (runToHalt_eq_ended_iff fuel s f ds).1 h
    exact ⟨hends.final_halted, hfuel, hends.run, fun k u hk => hends.running_before hk,
      fun k u hk => hends.diag_of_step hk, fun more =>
        (runToHalt_eq_ended_iff (fuel + more) s f ds).2 ⟨Nat.le_add_right_of_le hfuel, hends⟩⟩
  case converse =>
    obtain ⟨ds, hends, hlen⟩ := endsAfter_of_run h hf hbefore
    exact ⟨ds, (runToHalt_eq_ended_iff fuel s f ds).2 ⟨hlen.trans_le hk, hends⟩, hlen⟩

end Sys2Proof.Proofs
end

section
/-! SUPPORT. The status flags are carried along and read by nothing (R15, D9): with other flags a step gives
the same outcome with those flags; and O17. -/

namespace Sys2Proof.Machine

/-- The state with its status flags replaced. -/
def State.withFlags (s : State) (fl : List Bool) : State := { s with statusFlags := fl }

/-- An outcome with the status flags of its next state replaced; a refusal has none. -/
def Result.withFlags (r : Result) (fl : List Bool) : Result :=
  match r with
  | .next t => .next (t.withFlags fl)
  | .refused why => .refused why

section
variable (s : State) (fl : List Bool)

/-! ### The shared commits -/

theorem State.setX_withFlags (rd : RegIdx) (v : Word) :
    (s.withFlags fl).setX rd v = (s.setX rd v).withFlags fl :=
  (apply_ite (State.withFlags · fl) (s.isZeroReg rd = true) s (s.setStored rd v)).symm

theorem commitReg_withFlags (rd : RegIdx) (v : Word) :
    (s.withFlags fl).commitReg rd v = Result.withFlags (s.commitReg rd v) fl :=
  congrArg Host.Outcome.next (s.nextOf.setX_withFlags fl rd v)

theorem branch_withFlags (c : Bool) (imm : Word) :
    (s.withFlags fl).branch c imm = Result.withFlags (s.branch c imm) fl := by
  rw [branch_eq, branch_eq]
  rfl

theorem execSw_withFlags (rs1 rs2 : RegIdx) (imm : Word) :
    exec (.sw rs1 rs2 imm) (s.withFlags fl) = Result.withFlags (exec (.sw rs1 rs2 imm) s) fl := by
  cases hm : writePort s.cfg s.mem (s.effAddr rs1 imm) (s.x rs2) with
  | none =>
    have he : exec (.sw rs1 rs2 imm) s = _ := execSw_refused hm
    have he' : exec (.sw rs1 rs2 imm) (s.withFlags fl) = _ := execSw_refused hm
    rw [he, he']
    rfl
  | some m =>
    rw [execSw_next hm, execSw_next (s := s.withFlags fl) hm]
    rfl

/-! ### One instruction and one step -/

theorem exec_withFlags (i : Instr) :
    exec i (s.withFlags fl) = Result.withFlags (exec i s) fl := by
  cases i with
  | hlt => rfl
  | sw rs1 rs2 imm => exact execSw_withFlags s fl rs1 rs2 imm
  | beq | bne | blt | bge => exact branch_withFlags s fl _ _
  | lui | auipc | addi | slli | add | sub | sll | slt | xor | srl | sra | or | and =>
    exact commitReg_withFlags s fl _ _

theorem step_withFlags : step (s.withFlags fl) = Result.withFlags (step s) fl := by
  cases hr : s.halted with
  | true => rw [step_halted hr, step_halted (s := s.withFlags fl) hr]; rfl
  | false =>
    cases hw : s.wordAt s.pc with
    | none => rw [step_refused hr hw, step_refused (s := s.withFlags fl) hr hw]; rfl
    | some w =>
      rw [step_running hr hw, step_running (s := s.withFlags fl) hr hw]
      cases decodeWord w with
      | instr i => exact exec_withFlags s.fetched fl i
      | unsupportedOpcode op => rfl
      | unsupportedFunct rec => rfl

end

end Sys2Proof.Machine

namespace Sys2Proof.Proofs

open Sys2Proof.Machine

/-- Settles O17: the flags and the configuration by the cases of the step, their not mattering by
`step_withFlags`. -/
theorem statusFlagsNeverChangeAndNeverMatter : Obligations.StatusFlagsNeverChangeAndNeverMatter := by
  refine fun s fl => ⟨fun t h => ?next, fun why h => ?refused⟩
  case next =>
    obtain ⟨hcfg, hflags⟩ := step_cfg_statusFlags h
    exact ⟨hflags, hcfg, (step_withFlags s fl).trans (by rw [h]; rfl)⟩
  case refused => exact (step_withFlags s fl).trans (by rw [h]; rfl)

end Sys2Proof.Proofs
end
